-- ==== Sys2Proof/Word.lean ====
section
/-! DEFINITION. The word types of the block: a byte of the memory `M` (10_state.md R22) and the
32-bit word of a command, an operand latch or a port answer (30_encoding.md R90). -/

namespace Sys2Proof

/-- A byte of `M` (10_state.md R22). -/
abbrev Byte := BitVec 8

/-- A command word, operand word or port word (30_encoding.md R90, R92). -/
abbrev Word := BitVec 32

end Sys2Proof
end

