-- ==== Sys2Proof/Config.lean ====
section
/-! DEFINITION. The block's configuration (00_scope.md R7 to R9, R19): the parameters the spec
leaves open, gathered in one record that the state carries and no step changes, and the constants
the spec fixes. -/

namespace Sys2Proof

/-- The parameters of 00_scope.md R9 ("the model takes each as an argument") and ROTATE_XINV of R8.
They stand in a record inside the state because `exec` takes no other argument; a statement over
all states therefore holds for every value of each (log entry 7). -/
structure Config where
  /-- RESET_PALETTE[0..3] (R9). -/
  resetPalette0 : Word
  resetPalette1 : Word
  resetPalette2 : Word
  resetPalette3 : Word
  /-- RESET_DRAW_COLORS (R9). -/
  resetDrawColors : BitVec 16
  /-- FONT_FIRST, FONT_LAST (R9, 44_text.md R191). -/
  fontFirst : Byte
  fontLast : Byte
  /-- FONT (R9, 44_text.md R193): row `row` of the glyph of code `c` is entry `8 * c + row`, its
  column 0 in bit 7 and 1 meaning ink; an entry past the end is a row of paper (log entry 8). -/
  font : List Byte
  /-- DISK_CAP (R9), in bytes. -/
  diskCap : Nat
  /-- ROTATE_XINV (R8, 41_blit.md R141): false for the value 0 the spec fixes. -/
  rotateXinv : Bool
  deriving DecidableEq, Repr

/-- The glyph bitmaps of the built-in font: in no source (00_scope.md R9, 91_not_in_source.md N12).
A constant with no body, so no proof can see a glyph (log entry 8). -/
opaque Config.unknownFont : List Byte

/-- The configuration `State.reset` carries. PRESUMED: the suggested values of
93_implementation_defined.md section 3 (the WASM-4 family's), with ROTATE_XINV = 0 as 00_scope.md
R8 fixes it; the font is `Config.unknownFont` (log entries 6, 7, 8). -/
def Config.suggested : Config where
  resetPalette0 := 0x00E0F8CF#32
  resetPalette1 := 0x0086C06C#32
  resetPalette2 := 0x00306850#32
  resetPalette3 := 0x00071821#32
  resetDrawColors := 0x1203#16
  fontFirst := 32#8
  fontLast := 255#8
  font := Config.unknownFont
  diskCap := 1024
  rotateXinv := false

/-- MOUSE_X and MOUSE_Y before the first host input. PRESUMED: the suggested value of
93_implementation_defined.md section 3 (log entry 5). -/
def Config.mouseBeforeInput : BitVec 16 := 0x7FFF#16

end Sys2Proof
end

