-- ==== Sys2Proof/Syntax.lean ====
section
/-! DEFINITION. The twelve commands as typed operands (30_encoding.md R92, R94, R96): one
constructor per row of the opcode table. A signed operand is an integer, an unsigned or pointer
operand a natural number, a bit field or an opaque operand a 32-bit word (R94). -/

namespace Sys2Proof

/-- The commands, in the opcode order of 30_encoding.md R96. -/
inductive Instr where
  /-- 0x01, format F6 (41_blit.md R147). -/
  | blit (ptr : Nat) (x y : Int) (w h : Nat) (flags : Word)
  /-- 0x02, format F9 (41_blit.md R146). -/
  | blitSub (ptr : Nat) (x y : Int) (w h srcX srcY stride : Nat) (flags : Word)
  /-- 0x03, format F4L (42_lines.md R161). -/
  | line (x1 y1 x2 y2 : Int)
  /-- 0x04, format F3 (42_lines.md R162). -/
  | hline (x y : Int) (len : Nat)
  /-- 0x05, format F3 (42_lines.md R163). -/
  | vline (x y : Int) (len : Nat)
  /-- 0x06, format F4S (43_shapes.md R178). -/
  | oval (x y : Int) (w h : Nat)
  /-- 0x07, format F4S (43_shapes.md R176). -/
  | rect (x y : Int) (w h : Nat)
  /-- 0x08, format F4T (44_text.md R192). -/
  | text (ptr len : Nat) (x y : Int)
  /-- 0x09, format F4A (45_host_calls.md R201). -/
  | tone (frequency duration volume flags : Word)
  /-- 0x0A, format F2 (45_host_calls.md R205). -/
  | diskr (ptr count : Nat)
  /-- 0x0B, format F2 (45_host_calls.md R206). -/
  | diskw (ptr count : Nat)
  /-- 0x0C, format F2 (45_host_calls.md R208). -/
  | trace (ptr len : Nat)
  deriving DecidableEq, Repr

end Sys2Proof
end

