-- ==== Sys2Proof/WellFormed.lean ====
section
/-! DEFINITION. Which terms of `Instr` a command word and its operand words can express: each
typed operand lies in the range of its 32-bit reading (30_encoding.md R94). -/

namespace Sys2Proof

/-- The range of an unsigned or pointer operand, 0 to 2^32 - 1 (30_encoding.md R94). -/
def fitsUnsigned (n : Nat) : Bool := decide (n < 2 ^ 32)

/-- The range of a signed operand, -2^31 to 2^31 - 1 (30_encoding.md R94). -/
def fitsSigned (z : Int) : Bool := decide (-(2 ^ 31) ≤ z) && decide (z < 2 ^ 31)

/-- Every operand is in the range of its reading. Bit fields and opaque words are in range by their
type, so TONE is always well formed. -/
def Instr.wellFormed : Instr → Bool
  | .blit ptr x y w h _ =>
      fitsUnsigned ptr && fitsSigned x && fitsSigned y && fitsUnsigned w && fitsUnsigned h
  | .blitSub ptr x y w h srcX srcY stride _ =>
      fitsUnsigned ptr && fitsSigned x && fitsSigned y && fitsUnsigned w && fitsUnsigned h &&
        fitsUnsigned srcX && fitsUnsigned srcY && fitsUnsigned stride
  | .line x1 y1 x2 y2 => fitsSigned x1 && fitsSigned y1 && fitsSigned x2 && fitsSigned y2
  | .hline x y len => fitsSigned x && fitsSigned y && fitsUnsigned len
  | .vline x y len => fitsSigned x && fitsSigned y && fitsUnsigned len
  | .oval x y w h => fitsSigned x && fitsSigned y && fitsUnsigned w && fitsUnsigned h
  | .rect x y w h => fitsSigned x && fitsSigned y && fitsUnsigned w && fitsUnsigned h
  | .text ptr len x y => fitsUnsigned ptr && fitsUnsigned len && fitsSigned x && fitsSigned y
  | .tone _ _ _ _ => true
  | .diskr ptr count => fitsUnsigned ptr && fitsUnsigned count
  | .diskw ptr count => fitsUnsigned ptr && fitsUnsigned count
  | .trace ptr len => fitsUnsigned ptr && fitsUnsigned len

end Sys2Proof
end

