-- ==== Sys2Proof/Decode.lean ====
section
/-! DEFINITION. The command decoder (30_encoding.md R90 to R98): from the command word and the nine
operand latches to an instruction, and from the serial byte form (R93) to an instruction and the
bytes after it; then the encoder, from the same table; then the host's `decodeTableWord`. -/

namespace Sys2Proof

/-- OP[0] to OP[8], the operand latches of the command sub-port (10_state.md R42). -/
structure Operands where
  op0 : Word
  op1 : Word
  op2 : Word
  op3 : Word
  op4 : Word
  op5 : Word
  op6 : Word
  op7 : Word
  op8 : Word
  deriving DecidableEq, Repr

/-- Nine operand words, the list's first entry in OP[0]; an operand the list does not reach is 0. -/
def operandsOf (ws : List Word) : Operands where
  op0 := ws.getD 0 0
  op1 := ws.getD 1 0
  op2 := ws.getD 2 0
  op3 := ws.getD 3 0
  op4 := ws.getD 4 0
  op5 := ws.getD 5 0
  op6 := ws.getD 6 0
  op7 := ws.getD 7 0
  op8 := ws.getD 8 0

/-- `u(OP[k])` (00_scope.md R10, 30_encoding.md R94). -/
def unsignedOf (v : Word) : Nat := v.toNat

/-- `s(OP[k])` (00_scope.md R10, 30_encoding.md R94). -/
def signedOf (v : Word) : Int := v.toInt

/-- The number of operand words, by the whole command word: 30_encoding.md R96 ("selected when
CMD & 0xFFFFFFFF = opcode"), R98 (a non-zero upper bit selects nothing) and R97 (reserved
opcodes). -/
def operandCount (cmd : Word) : Option Nat :=
  match cmd.toNat with
  | 1 => some 6
  | 2 => some 9
  | 3 => some 4
  | 4 => some 3
  | 5 => some 3
  | 6 => some 4
  | 7 => some 4
  | 8 => some 4
  | 9 => some 4
  | 10 => some 2
  | 11 => some 2
  | 12 => some 2
  | _ => none

/-- The instruction the latches hold, `none` where the command word selects no command
(30_encoding.md R92, R94, R96 to R98). -/
def decodeLatches (cmd : Word) (o : Operands) : Option Instr :=
  match cmd.toNat with
  | 1 => some (.blit (unsignedOf o.op0) (signedOf o.op1) (signedOf o.op2) (unsignedOf o.op3)
      (unsignedOf o.op4) o.op5)
  | 2 => some (.blitSub (unsignedOf o.op0) (signedOf o.op1) (signedOf o.op2) (unsignedOf o.op3)
      (unsignedOf o.op4) (unsignedOf o.op5) (unsignedOf o.op6) (unsignedOf o.op7) o.op8)
  | 3 => some (.line (signedOf o.op0) (signedOf o.op1) (signedOf o.op2) (signedOf o.op3))
  | 4 => some (.hline (signedOf o.op0) (signedOf o.op1) (unsignedOf o.op2))
  | 5 => some (.vline (signedOf o.op0) (signedOf o.op1) (unsignedOf o.op2))
  | 6 => some (.oval (signedOf o.op0) (signedOf o.op1) (unsignedOf o.op2) (unsignedOf o.op3))
  | 7 => some (.rect (signedOf o.op0) (signedOf o.op1) (unsignedOf o.op2) (unsignedOf o.op3))
  | 8 => some (.text (unsignedOf o.op0) (unsignedOf o.op1) (signedOf o.op2) (signedOf o.op3))
  | 9 => some (.tone o.op0 o.op1 o.op2 o.op3)
  | 10 => some (.diskr (unsignedOf o.op0) (unsignedOf o.op1))
  | 11 => some (.diskw (unsignedOf o.op0) (unsignedOf o.op1))
  | 12 => some (.trace (unsignedOf o.op0) (unsignedOf o.op1))
  | _ => none

/-- What the serial decoder answers. -/
inductive Decoded where
  /-- A command and the bytes after it. -/
  | ok (i : Instr) (rest : List Byte)
  /-- The command word selects no command: 30_encoding.md R97, R98. -/
  | badCommand (cmd : Word)
  /-- Fewer bytes than the serial form has (30_encoding.md R93). -/
  | truncated
  deriving DecidableEq, Repr

/-- One little-endian word from the front of a byte list (30_encoding.md R93). -/
def takeWord : List Byte → Option (Word × List Byte)
  | b0 :: b1 :: b2 :: b3 :: rest => some (b3 ++ b2 ++ b1 ++ b0, rest)
  | _ => none

/-- `n` little-endian words from the front of a byte list (30_encoding.md R93). -/
def takeWords : Nat → List Byte → Option (List Word × List Byte)
  | 0, bs => some ([], bs)
  | n + 1, bs =>
    match takeWord bs with
    | none => none
    | some (v, rest) =>
      match takeWords n rest with
      | none => none
      | some (vs, rest') => some (v :: vs, rest')

/-- The serial form `CMD, OP[0], ..., OP[n-1]` (30_encoding.md R93), read from the front of a byte
list. Total: a reserved command word and a short list are refused by name. -/
def decodeBytes (bs : List Byte) : Decoded :=
  match takeWord bs with
  | none => .truncated
  | some (cmd, rest) =>
    match operandCount cmd with
    | none => .badCommand cmd
    | some n =>
      match takeWords n rest with
      | none => .truncated
      | some (ops, rest') =>
        match decodeLatches cmd (operandsOf ops) with
        | none => .badCommand cmd
        | some i => .ok i rest'

/-- The word of a natural number operand. -/
def wordOfNat (n : Nat) : Word := BitVec.ofNat 32 n

/-- The two's-complement word of a signed operand (30_encoding.md R102). -/
def wordOfInt (z : Int) : Word := BitVec.ofInt 32 z

/-- The words `CMD, OP[0], ..., OP[n-1]` of an instruction (30_encoding.md R92, R96). -/
def encodeWords : Instr → List Word
  | .blit ptr x y w h flags =>
      [1#32, wordOfNat ptr, wordOfInt x, wordOfInt y, wordOfNat w, wordOfNat h, flags]
  | .blitSub ptr x y w h srcX srcY stride flags =>
      [2#32, wordOfNat ptr, wordOfInt x, wordOfInt y, wordOfNat w, wordOfNat h, wordOfNat srcX,
        wordOfNat srcY, wordOfNat stride, flags]
  | .line x1 y1 x2 y2 => [3#32, wordOfInt x1, wordOfInt y1, wordOfInt x2, wordOfInt y2]
  | .hline x y len => [4#32, wordOfInt x, wordOfInt y, wordOfNat len]
  | .vline x y len => [5#32, wordOfInt x, wordOfInt y, wordOfNat len]
  | .oval x y w h => [6#32, wordOfInt x, wordOfInt y, wordOfNat w, wordOfNat h]
  | .rect x y w h => [7#32, wordOfInt x, wordOfInt y, wordOfNat w, wordOfNat h]
  | .text ptr len x y => [8#32, wordOfNat ptr, wordOfNat len, wordOfInt x, wordOfInt y]
  | .tone frequency duration volume flags => [9#32, frequency, duration, volume, flags]
  | .diskr ptr count => [10#32, wordOfNat ptr, wordOfNat count]
  | .diskw ptr count => [11#32, wordOfNat ptr, wordOfNat count]
  | .trace ptr len => [12#32, wordOfNat ptr, wordOfNat len]

/-- The four bytes of a word, least significant first (30_encoding.md R93). -/
def bytesOfWord (v : Word) : List Byte :=
  [v.extractLsb' 0 8, v.extractLsb' 8 8, v.extractLsb' 16 8, v.extractLsb' 24 8]

/-- The serial form of an instruction (30_encoding.md R93). -/
def encode (i : Instr) : List Byte := (encodeWords i).flatMap bytesOfWord

/-- `n` 32-bit words of a number whose bit 0 is the least significant bit of the first word. -/
def wordsOfNat : Nat → Nat → List Word
  | 0, _ => []
  | n + 1, v => BitVec.ofNat 32 v :: wordsOfNat n (v / 2 ^ 32)

/-- The words of the host's table word: the `nbits` low bits of `w`, zero above, as the ten words of
the longest command. -/
def tableWords (nbits w : Nat) : List Word := wordsOfNat 10 (w % 2 ^ nbits)

/-- The instruction the decoder reads from a row of spec/opcode_table.json whose bits are `w`, every
bit above `nbits` zero. -/
def decodeTableWord (nbits w : Nat) : Option Instr :=
  match decodeBytes ((tableWords nbits w).flatMap bytesOfWord) with
  | .ok i _ => some i
  | .badCommand _ => none
  | .truncated => none

end Sys2Proof
end

