-- ==== Sys2Proof/Machine/State.lean ====
section
/-! DEFINITION. The state of the machine (10_state.md R20): the block's memory, latches, fault latch
and disk blob, whether a frame callback runs, and the model's own fields: the outside agents' plans,
what left on the service ports, the ports' last answers, and the configuration. -/

namespace Sys2Proof.Machine

open Sys2Proof

/-- `M`: (address, byte) cells in rising order, no cell equal to what an unlisted address reads as
(10_state.md R22). -/
abbrev Memory := List Host.Cell

/-- FAULT (10_state.md R44). -/
structure FaultLatch where
  set : Bool
  code : BitVec 8
  info : Word
  deriving DecidableEq, Repr

/-- The widths of a cartridge access, 1, 2 or 4 bytes (20_memory.md R63, R66). -/
inductive Width where
  | w1
  | w2
  | w4
  deriving DecidableEq, Repr

/-- One step of the cartridge (70_reset_and_hazards.md R258): a memory access or a command. -/
inductive CartOp where
  /-- `CRead(a, n)` (20_memory.md R66). -/
  | read (a : BitVec 16) (n : Width)
  /-- `CWrite(a, n, v)`: the low n bytes of `v` (20_memory.md R66). -/
  | write (a : BitVec 16) (n : Width) (v : Word)
  /-- The issue of a command: CMD and the operand words (30_encoding.md R90). Of `ops` only the
  words the opcode counts are latched (10_state.md R42). -/
  | command (cmd : Word) (ops : Operands)
  deriving DecidableEq, Repr

/-- What the cartridge will do in a callback: the operations of `next`, and then it returns (`again` is
`none`, 70_reset_and_hazards.md R258) or never returns and does the operations of `again` over and over
(60_exceptions.md R230, "an infinite execution of the cartridge agent"; log entry 14). -/
structure CartPlan where
  next : List CartOp
  again : Option (List CartOp)
  deriving DecidableEq, Repr

/-- The items 10_state.md R47 calls unspecified after HReset. The host's plan carries them, so that
a statement over all plans holds for every value (log entry 9). -/
structure Unspecified where
  gamepad1 : Byte
  gamepad2 : Byte
  gamepad3 : Byte
  gamepad4 : Byte
  mouseX : BitVec 16
  mouseY : BitVec 16
  mouseButtons : Byte
  cmd : Word
  op : Operands
  code : BitVec 8
  info : Word
  /-- General memory from 0x19A0 up: "whatever the host's cartridge loader put there". -/
  image : List Byte
  deriving DecidableEq, Repr

/-- The six operations of the host port (60_exceptions.md R238). -/
inductive HostOp where
  /-- HReset, with what the unspecified items hold after it (70_reset_and_hazards.md R250). -/
  | reset (u : Unspecified)
  /-- HInput (70_reset_and_hazards.md R255). -/
  | input (g1 g2 g3 g4 : Byte) (mx my : BitVec 16) (mb : Byte)
  /-- HFrameStart (70_reset_and_hazards.md R257). -/
  | frameStart
  /-- HCallback: what the cartridge does in this frame (70_reset_and_hazards.md R258). -/
  | callback (body : CartPlan)
  /-- HPresent (70_reset_and_hazards.md R259). -/
  | present
  /-- HReadFault (60_exceptions.md R238). -/
  | readFault
  deriving DecidableEq, Repr

/-- What leaves the block on its outward service ports (45_host_calls.md R201, R208). -/
inductive Event where
  | tone (frequency duration volume flags : Word)
  | trace (bytes : List Byte)
  deriving DecidableEq, Repr

/-- The last answer of the cartridge port (00_scope.md R15, 30_encoding.md R90). -/
inductive CartAnswer where
  | idle
  | done
  /-- `done(result)` of DISKR and DISKW (30_encoding.md R105). -/
  | result (r : Word)
  /-- `done(v)` of a CRead: the n-byte value, zero-extended (20_memory.md R68). -/
  | data (v : Word)
  | fault
  deriving DecidableEq, Repr

/-- The last answer of the host port (60_exceptions.md R238). -/
inductive HostAnswer where
  | idle
  | done
  /-- HPresent: FRAMEBUFFER, PALETTE[0..3], SYSTEM_FLAGS, NETPLAY (70_reset_and_hazards.md R259). -/
  | picture (framebuffer : List Byte) (palette : List Word) (systemFlags netplay : Byte)
  /-- HReadFault: FAULT. -/
  | latch (f : FaultLatch)
  deriving DecidableEq, Repr

/-- The machine's state. -/
structure State where
  /-- `M` (10_state.md R22). -/
  mem : Memory
  /-- CMD, the opcode latch (10_state.md R42). -/
  cmd : Word
  /-- OP[0..8], the operand latches (10_state.md R42). -/
  op : Operands
  /-- FAULT (10_state.md R44). -/
  fault : FaultLatch
  /-- DISK, the host blob (10_state.md R45). -/
  disk : List Byte
  /-- `none`: no callback is running; `some p`: one is, and the cartridge will still do `p`
  (60_exceptions.md R233, R238; log entry 2). -/
  callback : Option CartPlan
  /-- MODEL'S OWN: what the host will do, next first (log entry 1). -/
  host : List HostOp
  /-- MODEL'S OWN: what left on the audio and debug ports, oldest first (log entry 11). -/
  events : List Event
  /-- MODEL'S OWN: the cartridge port's last answer (log entry 11). -/
  cpAnswer : CartAnswer
  /-- MODEL'S OWN: the host port's last answer (log entry 11). -/
  hpAnswer : HostAnswer
  /-- MODEL'S OWN: the parameters of 00_scope.md R8 and R9, changed by no step (log entry 7). -/
  cfg : Config
  deriving DecidableEq, Repr

/-- Why a step has no next state. Each is a stuck state of 93_implementation_defined.md V7r ("Any
operation while FAULT.set = 1: stuck"). -/
inductive Fault where
  /-- Raised by every command's meaning and by a reserved command word while FAULT.set = 1
  (60_exceptions.md R228: "the command sub-port accepts no command"). Safe: the spec gives no step. -/
  | commandNotAccepted
  /-- Raised by CRead and CWrite while FAULT.set = 1 (60_exceptions.md R228, 20_memory.md R70). Safe:
  the spec gives no step. -/
  | accessNotAccepted
  /-- Raised by HInput, HFrameStart and HCallback while FAULT.set = 1 (60_exceptions.md R228: "are not
  performed"). Safe: the spec gives no step. -/
  | hostOpNotPerformed
  deriving DecidableEq, Repr

/-- Why an instruction has no meaning. -/
inductive Refusal where
  /-- Raised by an arm of `exec` whose instruction has no meaning yet; no arm is left so. Safe: the
  machine stops. -/
  | notModelled (mnemonic : String)
  deriving DecidableEq, Repr

/-- OP[0..8] at `State.reset`: unspecified by 10_state.md R47. DESIGN CHOICE: all 0 (log entry 5). -/
def zeroOperands : Operands := operandsOf []

/-- The machine right after reset (10_state.md R47, R45). The memory lists nothing: what its bytes
read as is `Memory.initial`. CMD, OP, FAULT.code and FAULT.info are unspecified there; DESIGN
CHOICE: 0 (log entry 5). -/
def State.reset : State where
  mem := []
  cmd := 0#32
  op := zeroOperands
  fault := { set := false, code := 0#8, info := 0#32 }
  disk := []
  callback := none
  host := []
  events := []
  cpAnswer := .idle
  hpAnswer := .idle
  cfg := Config.suggested

end Sys2Proof.Machine
end

