-- ==== Sys2Proof/Machine/Ops.lean ====
section
/-! DEFINITION. The named operations over the state: the field updates, the memory primitives
(00_scope.md R12), the register table (10_state.md R24), the cartridge port's decoder (20_memory.md
R70), the one operation that takes a fault (60_exceptions.md R221) and the ways an operation
completes. -/

namespace Sys2Proof.Machine

open Sys2Proof

/-! ### Field updates -/

def State.setMem (s : State) (m : Memory) : State := { s with mem := m }
def State.setLatches (s : State) (c : Word) (o : Operands) : State := { s with cmd := c, op := o }
def State.setFault (s : State) (f : FaultLatch) : State := { s with fault := f }
def State.setDisk (s : State) (d : List Byte) : State := { s with disk := d }
def State.setCallback (s : State) (c : Option CartPlan) : State := { s with callback := c }
def State.setHost (s : State) (h : List HostOp) : State := { s with host := h }
def State.emit (s : State) (e : Event) : State := { s with events := s.events ++ [e] }
def State.answerCart (s : State) (r : CartAnswer) : State := { s with cpAnswer := r }
def State.answerHost (s : State) (r : HostAnswer) : State := { s with hpAnswer := r }

/-! ### The cartridge's turn -/

/-- What the cartridge does next in a callback. -/
inductive CartTurn where
  /-- A port operation, and what it will do after it. -/
  | acts (o : CartOp) (rest : CartPlan)
  /-- Its processor computes and uses no port (00_scope.md R6). -/
  | computes
  /-- It returns (70_reset_and_hazards.md R258). -/
  | returns
  deriving DecidableEq, Repr

/-- The next turn of a plan: the operations of `next`, then those of `again` from the start, each time
round (60_exceptions.md R230). -/
def CartPlan.turn (p : CartPlan) : CartTurn :=
  match p.next, p.again with
  | o :: rest, _ => .acts o { p with next := rest }
  | [], some (o :: rest) => .acts o { p with next := rest }
  | [], some [] => .computes
  | [], none => .returns

/-! ### Bytes of memory -/

/-- Byte `k` of a number, byte 0 the least significant (20_memory.md R60). -/
def byteOf (v k : Nat) : Byte := BitVec.ofNat 8 (v >>> (8 * k))

/-- PALETTE[i] of a configuration. -/
def paletteWord (c : Config) : Nat → Word
  | 0 => c.resetPalette0
  | 1 => c.resetPalette1
  | 2 => c.resetPalette2
  | _ => c.resetPalette3

/-- What a byte no cell lists reads as: the reset contents of 10_state.md R47. The framebuffer, the
reserved bytes, SYSTEM_FLAGS and NETPLAY are 0x00 there; PALETTE and DRAW_COLORS are the suggested
parameters (PRESUMED, log entry 6); the input registers (log entry 5) and general memory (log entry
4) are unspecified there, and 0x00 or the family's value here. -/
def Memory.initial (a : Nat) : Byte :=
  if a < 0x04 then 0
  else if a < 0x14 then byteOf (paletteWord Config.suggested ((a - 4) / 4)).toNat ((a - 4) % 4)
  else if a < 0x16 then byteOf Config.suggested.resetDrawColors.toNat (a - 0x14)
  else if a < 0x1A then 0
  else if a < 0x1E then byteOf Config.mouseBeforeInput.toNat ((a - 0x1A) % 2)
  else 0

/-- The cell at an address. -/
def Memory.lookup : Memory → Nat → Option Byte
  | [], _ => none
  | (b, v) :: t, a => if a = b then some v else Memory.lookup t a

/-- `M[a]` (00_scope.md R12). -/
def Memory.read (m : Memory) (a : Nat) : Byte :=
  match m.lookup a with
  | some v => v
  | none => Memory.initial a

/-- The cells with a cell for `a`, in rising order. -/
def Memory.insertCell (a : Nat) (v : Byte) : Memory → Memory
  | [] => [(a, v)]
  | (b, u) :: t =>
    if a < b then (a, v) :: (b, u) :: t
    else if a = b then (a, v) :: t
    else (b, u) :: Memory.insertCell a v t

/-- The cells without any cell for `a`. -/
def Memory.dropCell (a : Nat) : Memory → Memory
  | [] => []
  | (b, u) :: t => if a = b then Memory.dropCell a t else (b, u) :: Memory.dropCell a t

/-- `M[a] <- v` (00_scope.md R12), in the canonical form: a value an unlisted address reads as is not
listed. There is no byte above 0xFFFF (10_state.md R22), so nothing is written there; every rule
checks its range before it writes. -/
def Memory.write (m : Memory) (a : Nat) (v : Byte) : Memory :=
  if a < 0x10000 then
    if v = Memory.initial a then m.dropCell a else m.insertCell a v
  else m

/-- Canonical from an address up: rising addresses at least `lo`, all in the 64 KB, no cell equal to
what an unlisted address reads as. -/
def Memory.wfFrom : Nat → Memory → Bool
  | _, [] => true
  | lo, (a, v) :: t =>
    decide (lo ≤ a) && decide (a < 0x10000) && decide (v ≠ Memory.initial a) &&
      Memory.wfFrom (a + 1) t

/-- The canonical form of the memory. -/
def Memory.wf (m : Memory) : Bool := m.wfFrom 0

/-- `MemRead(a, n)`: n bytes, little-endian (00_scope.md R12, 20_memory.md R60). -/
def Memory.readLE (m : Memory) : Nat → Nat → Nat
  | _, 0 => 0
  | a, n + 1 => (m.read a).toNat + 256 * m.readLE (a + 1) n

/-- Bytes stored at rising addresses, the first at `a`. -/
def Memory.writeBytes (m : Memory) : Nat → List Byte → Memory
  | _, [] => m
  | a, v :: vs => (m.writeBytes (a + 1) vs).write a v

/-- The low `n` bytes of a number, least significant first. -/
def bytesLE (n v : Nat) : List Byte := (List.range n).map (byteOf v)

/-- `MemWrite(a, n, v)`: the low n bytes of v, little-endian (00_scope.md R12). -/
def Memory.writeLE (m : Memory) (a n v : Nat) : Memory := m.writeBytes a (bytesLE n v)

/-- `n` bytes from `a` up. -/
def Memory.readBytes (m : Memory) (a n : Nat) : List Byte :=
  (List.range n).map fun k => m.read (a + k)

def State.readByte (s : State) (a : Nat) : Byte := s.mem.read a

def State.writeByte (s : State) (a : Nat) (v : Byte) : State := s.setMem (s.mem.write a v)

/-! ### The register table -/

/-- The cartridge's right on a register row (10_state.md R24, column C). -/
inductive Rights where
  | readOnly
  | readWrite
  deriving DecidableEq, Repr

/-- The registers of the register file (10_state.md R24). -/
inductive Reg where
  | palette0
  | palette1
  | palette2
  | palette3
  | drawColors
  | gamepad1
  | gamepad2
  | gamepad3
  | gamepad4
  | mouseX
  | mouseY
  | mouseButtons
  | systemFlags
  | netplay
  deriving DecidableEq, Repr

/-- The type of a register row (10_state.md R24). -/
inductive RegType where
  | u8
  | u16
  | u32
  | i16
  deriving DecidableEq, Repr

/-- One row of the register decode table (10_state.md R24). -/
structure RegRow where
  reg : Reg
  address : Nat
  width : Width
  type : RegType
  rights : Rights
  deriving DecidableEq, Repr

/-- The number of bytes of a width (20_memory.md R63). -/
def bytesOf : Width → Nat
  | .w1 => 1
  | .w2 => 2
  | .w4 => 4

/-- The row of a register (10_state.md R24). -/
def rowOf : Reg → RegRow
  | .palette0 => ⟨.palette0, 0x04, .w4, .u32, .readWrite⟩
  | .palette1 => ⟨.palette1, 0x08, .w4, .u32, .readWrite⟩
  | .palette2 => ⟨.palette2, 0x0C, .w4, .u32, .readWrite⟩
  | .palette3 => ⟨.palette3, 0x10, .w4, .u32, .readWrite⟩
  | .drawColors => ⟨.drawColors, 0x14, .w2, .u16, .readWrite⟩
  | .gamepad1 => ⟨.gamepad1, 0x16, .w1, .u8, .readOnly⟩
  | .gamepad2 => ⟨.gamepad2, 0x17, .w1, .u8, .readOnly⟩
  | .gamepad3 => ⟨.gamepad3, 0x18, .w1, .u8, .readOnly⟩
  | .gamepad4 => ⟨.gamepad4, 0x19, .w1, .u8, .readOnly⟩
  | .mouseX => ⟨.mouseX, 0x1A, .w2, .i16, .readOnly⟩
  | .mouseY => ⟨.mouseY, 0x1C, .w2, .i16, .readOnly⟩
  | .mouseButtons => ⟨.mouseButtons, 0x1E, .w1, .u8, .readOnly⟩
  | .systemFlags => ⟨.systemFlags, 0x1F, .w1, .u8, .readWrite⟩
  | .netplay => ⟨.netplay, 0x20, .w1, .u8, .readWrite⟩

/-- The register decode table, rows 0 to 13 (10_state.md R24). -/
def regTable : List RegRow :=
  [rowOf .palette0, rowOf .palette1, rowOf .palette2, rowOf .palette3, rowOf .drawColors,
    rowOf .gamepad1, rowOf .gamepad2, rowOf .gamepad3, rowOf .gamepad4, rowOf .mouseX,
    rowOf .mouseY, rowOf .mouseButtons, rowOf .systemFlags, rowOf .netplay]

/-- The row an access hits exactly, by address and width (20_memory.md R67). -/
def findRow (a : Nat) (n : Width) : Option RegRow :=
  regTable.find? fun r => decide (r.address = a) && decide (r.width = n)

/-- A register's bits: the little-endian read at its row's address and width (10_state.md R25). -/
def Memory.readReg (m : Memory) (r : Reg) : Nat :=
  m.readLE (rowOf r).address (bytesOf (rowOf r).width)

/-- A register as a value: `s()` of its bits in a signed row, `u()` in every other (10_state.md R25). -/
def Memory.regValue (m : Memory) (r : Reg) : Int :=
  match (rowOf r).type with
  | .i16 => (BitVec.ofNat 16 (m.readReg r)).toInt
  | .u8 => m.readReg r
  | .u16 => m.readReg r
  | .u32 => m.readReg r

/-- A register as a target: the little-endian write at its row's address and width (10_state.md R25). -/
def Memory.writeReg (m : Memory) (r : Reg) (v : Nat) : Memory :=
  m.writeLE (rowOf r).address (bytesOf (rowOf r).width) v

/-- DRAW_COLORS (10_state.md R28). -/
def State.drawColors (s : State) : BitVec 16 := BitVec.ofNat 16 (s.mem.readReg .drawColors)

/-- SYSTEM_FLAGS (10_state.md R36). -/
def State.systemFlags (s : State) : Byte := BitVec.ofNat 8 (s.mem.readReg .systemFlags)

/-! ### Faults -/

/-- The faults a rule can raise; the list is closed (60_exceptions.md R222). -/
inductive FaultName where
  | badCommand
  | badAccess
  | addrRange
  | srcRange
  | dstRange
  deriving DecidableEq, Repr

/-- The code of a fault (60_exceptions.md R222). -/
def faultNumber : FaultName → BitVec 8
  | .badCommand => 1#8
  | .badAccess => 2#8
  | .addrRange => 3#8
  | .srcRange => 4#8
  | .dstRange => 5#8

/-- TAKING A FAULT, the one shared operation (60_exceptions.md R221, R227): FAULT is written if it is
clear, the cartridge port answers fault, and the callback ends there (70_reset_and_hazards.md R258;
log entry 2). There is no return from a fault but HReset (60_exceptions.md R229), which is
`hostReset`. -/
def State.raise (s : State) (f : FaultName) (info : Word) : State :=
  let t := if s.fault.set then s else
    s.setFault { set := true, code := faultNumber f, info := info }
  (t.setCallback none).answerCart .fault

/-- An address as fault info, "saturated to 0xFFFFFFFF if larger" (60_exceptions.md R222). -/
def infoOf (a : Nat) : Word := BitVec.ofNat 32 (min a 0xFFFFFFFF)

/-- A command's meaning: refused a step while FAULT.set = 1, a next state otherwise
(40_pixel_pipeline.md R130, 60_exceptions.md R228). -/
def State.accept (s : State) (run : State → State) : Host.Outcome State Fault Refusal :=
  if s.fault.set then .fault .commandNotAccepted else .next (run s)

/-- `done` (30_encoding.md R90). -/
def State.finish (s : State) : State := s.answerCart .done

/-- `done(result)` (30_encoding.md R105). -/
def State.finishWith (s : State) (r : Nat) : State := s.answerCart (.result (BitVec.ofNat 32 r))

/-! ### The cartridge port's decoder -/

/-- The kind of a cartridge access. -/
inductive Access where
  | read
  | write
  deriving DecidableEq, Repr

/-- The outcomes of the cartridge port's decoder (20_memory.md R70). -/
inductive PortVerdict where
  | notAccepted
  | raises (f : FaultName)
  | dropped
  | performed
  deriving DecidableEq, Repr

/-- The cartridge port's decoder as one total function (20_memory.md R70). -/
def portVerdict (faulted : Bool) (a : Nat) (n : Width) (k : Access) : PortVerdict :=
  if faulted then .notAccepted
  else if a + bytesOf n - 1 > 0xFFFF then .raises .addrRange
  else if a ≤ 0x9F then
    match findRow a n with
    | none => .raises .badAccess
    | some r => if k = .write ∧ r.rights = .readOnly then .dropped else .performed
  else .performed

end Sys2Proof.Machine
end

