-- ==== Sys2Proof/Machine/Flags.lean ====
section
/-! DEFINITION. The flag and field computations: the block has no condition codes (10_state.md R44),
so these are the bits of the blit `flags` operand (41_blit.md R141), the nibbles of DRAW_COLORS
(10_state.md R31, R32) and the bit of SYSTEM_FLAGS the block reads (10_state.md R36). -/

namespace Sys2Proof.Machine

open Sys2Proof

/-- The decoded blit flags (41_blit.md R141): `flipX` is the effective horizontal mirror. -/
structure BlitMode where
  twoBpp : Bool
  flipX : Bool
  flipY : Bool
  rotate : Bool
  deriving DecidableEq, Repr

/-- Flag decode (41_blit.md R141, 30_encoding.md R95): bits 31:4 are ignored (R99). -/
def blitMode (rotateXinv : Bool) (flags : Word) : BlitMode where
  twoBpp := flags.getLsbD 0
  flipX := flags.getLsbD 1 ^^ (flags.getLsbD 3 && rotateXinv)
  flipY := flags.getLsbD 2
  rotate := flags.getLsbD 3

/-- The four draw-colour roles (00_scope.md R17, 10_state.md R28). -/
inductive Role where
  | role1
  | role2
  | role3
  | role4
  deriving DecidableEq, Repr

/-- `role = value + 1` for a source pixel value 0 to 3 (41_blit.md R143). -/
def roleOfValue : Nat → Role
  | 0 => .role1
  | 1 => .role2
  | 2 => .role3
  | _ => .role4

/-- `DC(k) = DRAW_COLORS[4k-1 : 4k-4]` of a DRAW_COLORS value (10_state.md R29, R31). -/
def nibbleOf (dc : BitVec 16) : Role → BitVec 4
  | .role1 => dc.extractLsb' 0 4
  | .role2 => dc.extractLsb' 4 4
  | .role3 => dc.extractLsb' 8 4
  | .role4 => dc.extractLsb' 12 4

/-- The slot a nibble selects, `none` for transparent: n = 0 is transparent, otherwise slot
(n - 1) mod 4 (10_state.md R32). -/
def slotOf (n : BitVec 4) : Option (BitVec 2) :=
  if n = 0#4 then none else some (BitVec.ofNat 2 (n.toNat - 1))

/-- `Remap(k)` (40_pixel_pipeline.md R123), DRAW_COLORS read at this moment (R125). -/
def State.remap (s : State) (k : Role) : Option (BitVec 2) := slotOf (nibbleOf s.drawColors k)

/-- SYSTEM_FLAGS.PRESERVE_FRAMEBUFFER (10_state.md R36). -/
def State.preservesFramebuffer (s : State) : Bool := s.systemFlags.getLsbD 0

end Sys2Proof.Machine
end

