-- ==== Sys2Proof/Machine/Operands.lean ====
section
/-! DEFINITION. The operand forms of the commands: the source byte and the range checks of a pointer
operand (40_pixel_pipeline.md R126, R130), the on-screen part of a coordinate and length
(41_blit.md R145), and the source and target of a blit (41_blit.md R142 to R145). -/

namespace Sys2Proof.Machine

open Sys2Proof

/-- `SrcByte(a)` (40_pixel_pipeline.md R126): every use stands behind a range check. -/
def State.srcByte (s : State) (a : Nat) : Byte := s.readByte a

/-- The bytes `SrcByte(ptr)` to `SrcByte(ptr + n - 1)`. -/
def State.srcBytes (s : State) (ptr n : Nat) : List Byte := s.mem.readBytes ptr n

/-- The range check of `n` source bytes at `ptr`: the first above 0xFFFF (44_text.md R192,
45_host_calls.md R206, R208). -/
def stringFault (ptr n : Nat) : Option Nat :=
  if 1 ≤ n ∧ ptr + n - 1 > 0xFFFF then some (max ptr 0x10000) else none

/-- The least address above 0xFFFF of a list (41_blit.md R145). -/
def leastAbove : List Nat → Option Nat
  | [] => none
  | a :: t =>
    match leastAbove t with
    | none => if a > 0xFFFF then some a else none
    | some b => if a > 0xFFFF then some (min a b) else some b

/-- The offsets k with 0 ≤ k < len whose coordinate o + k is on the screen, ascending:
`max(0, -o) <= k < min(len, 160 - o)` (41_blit.md R145). -/
def clip (o : Int) (len : Nat) : List Nat :=
  List.range' (max 0 (-o)).toNat (min (len : Int) (160 - o) - max 0 (-o)).toNat

/-- The operands of a blit (41_blit.md R146), its flags decoded. -/
structure Blit where
  ptr : Nat
  x : Int
  y : Int
  w : Nat
  h : Nat
  srcX : Nat
  srcY : Nat
  stride : Nat
  mode : BlitMode
  deriving DecidableEq, Repr

/-- The target of sprite column `i`, row `j` (41_blit.md R142). -/
def Blit.target (b : Blit) (i j : Nat) : Int × Int :=
  if b.mode.rotate then (b.x + j, b.y + i) else (b.x + i, b.y + j)

/-- The number of the source pixel of column `i`, row `j` (41_blit.md R142, R144). -/
def Blit.pixelNumber (b : Blit) (i j : Nat) : Nat :=
  (b.srcY + if b.mode.flipY then b.h - 1 - j else j) * b.stride +
    (b.srcX + if b.mode.flipX then b.w - 1 - i else i)

/-- The byte address of source pixel number `n` (41_blit.md R143, R145). -/
def Blit.byteAddr (b : Blit) (n : Nat) : Nat := b.ptr + if b.mode.twoBpp then n >>> 2 else n >>> 3

/-- The value of source pixel number `n`, most significant bit or pair first (41_blit.md R143). -/
def Blit.sourceValue (b : Blit) (s : State) (n : Nat) : Nat :=
  let byte := (s.srcByte (b.byteAddr n)).toNat
  if b.mode.twoBpp then byte >>> (6 - 2 * (n % 4)) % 4 else byte >>> (7 - n % 8) % 2

/-- The sampled columns and rows (41_blit.md R145): for each sprite row `j` on the screen, ascending,
each sprite column `i` on the screen, ascending (R148). -/
def Blit.sampled (b : Blit) : List (Nat × Nat) :=
  if b.mode.rotate then
    (clip b.x b.h).flatMap fun j => (clip b.y b.w).map fun i => (i, j)
  else
    (clip b.y b.h).flatMap fun j => (clip b.x b.w).map fun i => (i, j)

/-- Phase 1 of a blit: the least sampled address above 0xFFFF (41_blit.md R145). -/
def Blit.sourceFault (b : Blit) : Option Nat :=
  leastAbove (b.sampled.map fun p => b.byteAddr (b.pixelNumber p.1 p.2))

end Sys2Proof.Machine
end

