-- ==== Sys2Proof/Machine/Pixels.lean ====
section
/-! DEFINITION. The pixel pipeline every drawing command is written in (40_pixel_pipeline.md R120 to
R124, 10_state.md R40). -/

namespace Sys2Proof.Machine

open Sys2Proof

/-- `OnScreen(px, py)` (40_pixel_pipeline.md R121). -/
def onScreen (px py : Int) : Bool :=
  decide (0 ≤ px) && decide (px ≤ 159) && decide (0 ≤ py) && decide (py ≤ 159)

/-- `addr(px, py)`, used for on-screen pixels only (10_state.md R40). -/
def pixelAddr (px py : Int) : Nat := 0xA0 + (py * 160 + px).toNat >>> 2

/-- `shift(px)` (10_state.md R40). -/
def pixelShift (px : Int) : Nat := 2 * (px.toNat % 4)

/-- `FB(px, py)` of a memory (10_state.md R40). -/
def Memory.pixel (m : Memory) (px py : Int) : BitVec 2 :=
  (m.read (pixelAddr px py) >>> pixelShift px).setWidth 2

/-- `FB(px, py)` (00_scope.md R14, 10_state.md R40). -/
def State.fb (s : State) (px py : Int) : BitVec 2 := s.mem.pixel px py

/-- A framebuffer byte with one of its four lanes replaced (40_pixel_pipeline.md R122, R129). -/
def withLane (b : Byte) (shift : Nat) (slot : BitVec 2) : Byte :=
  (b &&& ~~~(3#8 <<< shift)) ||| (slot.setWidth 8 <<< shift)

/-- `PutPixel(px, py, slot)` (40_pixel_pipeline.md R122): nothing off the screen. -/
def State.putPixel (s : State) (px py : Int) (slot : BitVec 2) : State :=
  if onScreen px py then
    s.writeByte (pixelAddr px py) (withLane (s.readByte (pixelAddr px py)) (pixelShift px) slot)
  else s

/-- `Plot(px, py, k)` (40_pixel_pipeline.md R124). -/
def State.plot (s : State) (px py : Int) (k : Role) : State :=
  match s.remap k with
  | none => s
  | some slot => s.putPixel px py slot

/-- Plots in the order of the list. -/
def State.plotAll (s : State) (ps : List (Int × Int × Role)) : State :=
  ps.foldl (fun t p => t.plot p.1 p.2.1 p.2.2) s

end Sys2Proof.Machine
end

