-- ==== Sys2Proof/Machine/Blit.lean ====
section
/-! DEFINITION. BLIT and BLITSUB (41_blit.md). -/

namespace Sys2Proof.Machine

open Sys2Proof

/-- One visited pixel of phase 2: its source pixel is read, then plotted (41_blit.md R146, R148). -/
def Blit.drawPixel (b : Blit) (s : State) (p : Nat × Nat) : State :=
  s.plot (b.target p.1 p.2).1 (b.target p.1 p.2).2
    (roleOfValue (b.sourceValue s (b.pixelNumber p.1 p.2)))

/-- The two phases of a blit (41_blit.md R146): all sampled addresses are checked before the first
write, then the sampled pixels are drawn in order, so a later read sees an earlier write (R148). -/
def Blit.run (b : Blit) (s : State) : State :=
  match b.sourceFault with
  | some a => s.raise .srcRange (infoOf a)
  | none => (b.sampled.foldl b.drawPixel s).finish

/-- BLITSUB's operands as a blit (41_blit.md R146). -/
def blitSubOf (c : Config) (ptr : Nat) (x y : Int) (w h srcX srcY stride : Nat) (flags : Word) :
    Blit where
  ptr := ptr
  x := x
  y := y
  w := w
  h := h
  srcX := srcX
  srcY := srcY
  stride := stride
  mode := blitMode c.rotateXinv flags

/-- BLIT's operands as a blit: srcX = srcY = 0, stride = w (41_blit.md R147). -/
def blitOf (c : Config) (ptr : Nat) (x y : Int) (w h : Nat) (flags : Word) : Blit :=
  blitSubOf c ptr x y w h 0 0 w flags

/-- BLIT (41_blit.md R147). -/
def execBlit (ptr : Nat) (x y : Int) (w h : Nat) (flags : Word) (s : State) :
    Host.Outcome State Fault Refusal :=
  s.accept (blitOf s.cfg ptr x y w h flags).run

/-- BLITSUB (41_blit.md R146). -/
def execBlitSub (ptr : Nat) (x y : Int) (w h srcX srcY stride : Nat) (flags : Word) (s : State) :
    Host.Outcome State Fault Refusal :=
  s.accept (blitSubOf s.cfg ptr x y w h srcX srcY stride flags).run

end Sys2Proof.Machine
end

