-- ==== Sys2Proof/Machine/HostCalls.lean ====
section
/-! DEFINITION. TONE, DISKR, DISKW, TRACE (45_host_calls.md): the commands that reach an outward
service port. -/

namespace Sys2Proof.Machine

open Sys2Proof

/-- TONE (45_host_calls.md R201): the four words leave on the audio port unchanged. -/
def execTone (frequency duration volume flags : Word) (s : State) :
    Host.Outcome State Fault Refusal :=
  s.accept fun t => (t.emit (.tone frequency duration volume flags)).finish

/-- The bytes a DISKR moves, `min(count, len(DISK))` (45_host_calls.md R205). -/
def diskReadCount (s : State) (count : Nat) : Nat := min count s.disk.length

/-- The bytes a DISKW moves, `min(count, DISK_CAP)` (45_host_calls.md R206). -/
def diskWriteCount (s : State) (count : Nat) : Nat := min count s.cfg.diskCap

/-- DISKR's range check (45_host_calls.md R205): `r` bytes from `ptr` do not all lie in 0x00A0 to
0xFFFF. -/
def dstOutside (ptr r : Nat) : Bool :=
  decide (1 ≤ r) && (decide (ptr < 0xA0) || decide (ptr + r - 1 > 0xFFFF))

/-- DISKR (45_host_calls.md R205). -/
def execDiskr (ptr count : Nat) (s : State) : Host.Outcome State Fault Refusal :=
  s.accept fun t =>
    let r := diskReadCount t count
    if dstOutside ptr r then t.raise .dstRange (infoOf ptr)
    else (t.setMem (t.mem.writeBytes ptr (t.disk.take r))).finishWith r

/-- DISKW (45_host_calls.md R206). -/
def execDiskw (ptr count : Nat) (s : State) : Host.Outcome State Fault Refusal :=
  s.accept fun t =>
    let r := diskWriteCount t count
    match stringFault ptr r with
    | some a => t.raise .srcRange (infoOf a)
    | none => (t.setDisk (t.srcBytes ptr r)).finishWith r

/-- TRACE (45_host_calls.md R208). -/
def execTrace (ptr len : Nat) (s : State) : Host.Outcome State Fault Refusal :=
  s.accept fun t =>
    match stringFault ptr len with
    | some a => t.raise .srcRange (infoOf a)
    | none => (t.emit (.trace (t.srcBytes ptr len))).finish

end Sys2Proof.Machine
end

