-- ==== Sys2Proof/Machine/Lines.lean ====
section
/-! DEFINITION. LINE, HLINE, VLINE (42_lines.md): every pixel has role 1 (R160). -/

namespace Sys2Proof.Machine

open Sys2Proof

/-- The loop of LINE (42_lines.md R161) from the point (x, y) with error term `err`: the points it
plots, in order. `fuel` bounds the iterations; `linePoints` gives it more than the loop needs. -/
def lineLoop (x2 y2 dx dy sx : Int) : Nat → Int → Int → Int → List (Int × Int)
  | 0, x, y, _ => [(x, y)]
  | fuel + 1, x, y, err =>
    if x = x2 ∧ y = y2 then [(x, y)]
    else
      (x, y) :: lineLoop x2 y2 dx dy sx fuel
        (if err > -dx then x + sx else x)
        (if err < dy then y + 1 else y)
        (err - (if err > -dx then dy else 0) + (if err < dy then dx else 0))

/-- The points of LINE with its endpoints already ordered by y (42_lines.md R161). -/
def linePointsDown (x1 y1 x2 y2 : Int) : List (Int × Int) :=
  let dx : Int := (x2 - x1).natAbs
  let dy := y2 - y1
  lineLoop x2 y2 dx dy (if x1 < x2 then 1 else -1) ((x2 - x1).natAbs + dy.toNat) x1 y1
    (if dx > dy then dx / 2 else -(dy / 2))

/-- The points LINE plots, in order: the endpoints exchanged if y1 > y2 (42_lines.md R161). -/
def linePoints (x1 y1 x2 y2 : Int) : List (Int × Int) :=
  if y1 > y2 then linePointsDown x2 y2 x1 y1 else linePointsDown x1 y1 x2 y2

/-- LINE (42_lines.md R161). -/
def execLine (x1 y1 x2 y2 : Int) (s : State) : Host.Outcome State Fault Refusal :=
  s.accept fun t =>
    (t.plotAll ((linePoints x1 y1 x2 y2).map fun p => (p.1, p.2, Role.role1))).finish

/-- HLINE (42_lines.md R162): the columns x to x + len - 1 that are on the screen, ascending. -/
def execHline (x y : Int) (len : Nat) (s : State) : Host.Outcome State Fault Refusal :=
  s.accept fun t => (t.plotAll ((clip x len).map fun (k : Nat) => (x + (k : Int), y, Role.role1))).finish

/-- VLINE (42_lines.md R163): the rows y to y + len - 1 that are on the screen, ascending. -/
def execVline (x y : Int) (len : Nat) (s : State) : Host.Outcome State Fault Refusal :=
  s.accept fun t => (t.plotAll ((clip y len).map fun (k : Nat) => (x, y + (k : Int), Role.role1))).finish

end Sys2Proof.Machine
end

