-- ==== Sys2Proof/Machine/Shapes.lean ====
section
/-! DEFINITION. RECT and OVAL (43_shapes.md): role 1 the outline, role 2 the fill, disjoint (R175). -/

namespace Sys2Proof.Machine

open Sys2Proof

/-- The pixels of the box that are on the screen (43_shapes.md R176, R178). -/
def boxPixels (x y : Int) (w h : Nat) : List (Int × Int) :=
  (clip y h).flatMap fun (j : Nat) => (clip x w).map fun (i : Nat) => (x + (i : Int), y + (j : Int))

/-- `(px, py)` of the box lies on the outline of RECT (43_shapes.md R176). -/
def rectOutline (x y : Int) (w h : Nat) (px py : Int) : Bool :=
  decide (px = x) || decide (px = x + w - 1) || decide (py = y) || decide (py = y + h - 1)

/-- `Inside(px, py)` of OVAL (43_shapes.md R177). -/
def ovalInside (x y : Int) (w h : Nat) (px py : Int) : Bool :=
  let cx := 2 * (px - x) + 1 - w
  let cy := 2 * (py - y) + 1 - h
  decide (1 ≤ w) && decide (1 ≤ h) &&
    decide (cx * cx * h * h + cy * cy * w * w ≤ (w : Int) * w * h * h)

/-- A body pixel of OVAL lies on its outline: an edge neighbour is outside the body
(43_shapes.md R178). -/
def ovalOutline (x y : Int) (w h : Nat) (px py : Int) : Bool :=
  !(ovalInside x y w h (px + 1) py && ovalInside x y w h (px - 1) py &&
    ovalInside x y w h px (py + 1) && ovalInside x y w h px (py - 1))

/-- The plots of RECT: outline pixels with role 1, fill pixels with role 2 (43_shapes.md R176; the
order cannot be observed). -/
def rectPlots (x y : Int) (w h : Nat) : List (Int × Int × Role) :=
  (boxPixels x y w h).map fun p =>
    (p.1, p.2, if rectOutline x y w h p.1 p.2 then .role1 else .role2)

/-- The plots of OVAL: the on-screen body pixels (43_shapes.md R178). -/
def ovalPlots (x y : Int) (w h : Nat) : List (Int × Int × Role) :=
  ((boxPixels x y w h).filter fun p => ovalInside x y w h p.1 p.2).map fun p =>
    (p.1, p.2, if ovalOutline x y w h p.1 p.2 then .role1 else .role2)

/-- RECT (43_shapes.md R176). -/
def execRect (x y : Int) (w h : Nat) (s : State) : Host.Outcome State Fault Refusal :=
  s.accept fun t => (t.plotAll (rectPlots x y w h)).finish

/-- OVAL (43_shapes.md R178). -/
def execOval (x y : Int) (w h : Nat) (s : State) : Host.Outcome State Fault Refusal :=
  s.accept fun t => (t.plotAll (ovalPlots x y w h)).finish

end Sys2Proof.Machine
end

