-- ==== Sys2Proof/Machine/Text.lean ====
section
/-! DEFINITION. TEXT (44_text.md). -/

namespace Sys2Proof.Machine

open Sys2Proof

/-- `FONT(c, row, col) = 1`, ink (44_text.md R193; the layout of the glyph rows: log entry 8). -/
def fontBit (c : Config) (code : Byte) (row col : Nat) : Bool :=
  (c.font.getD (8 * code.toNat + row) 0#8).getLsbD (7 - col)

/-- The character has a glyph: FONT_FIRST <= c <= FONT_LAST (44_text.md R191). -/
def hasGlyph (c : Config) (code : Byte) : Bool :=
  decide (c.fontFirst.toNat ≤ code.toNat) && decide (code.toNat ≤ c.fontLast.toNat)

/-- The plots of `DrawGlyph(c, cx, cy)`: ink role 1, paper role 2 (44_text.md R193). -/
def glyphPlots (c : Config) (code : Byte) (cx cy : Int) : List (Int × Int × Role) :=
  (List.range 8).flatMap fun (row : Nat) => (List.range 8).map fun (col : Nat) =>
    (cx + (col : Int), cy + (row : Int), if fontBit c code row col then .role1 else .role2)

/-- Phase 2 of TEXT (44_text.md R192): the `n` characters at `ptr` and up, the cursor at (cx, cy), the
line's start at column `x`. Each byte is read after the glyphs before it are drawn. -/
def textLoop (x : Int) : Nat → Nat → Int → Int → State → State
  | 0, _, _, _, s => s
  | n + 1, ptr, cx, cy, s =>
    let c := s.srcByte ptr
    if c = 0x0A#8 then textLoop x n (ptr + 1) x (cy + 8) s
    else if hasGlyph s.cfg c then
      textLoop x n (ptr + 1) (cx + 8) cy (s.plotAll (glyphPlots s.cfg c cx cy))
    else textLoop x n (ptr + 1) (cx + 8) cy s

/-- TEXT (44_text.md R192): all `len` bytes are checked "whether or not their cells are on screen", so a
string past 0xFFFF faults although nothing of it is visible (against 40_pixel_pipeline.md R134's last
sentence, log entry 17). -/
def execText (ptr len : Nat) (x y : Int) (s : State) : Host.Outcome State Fault Refusal :=
  s.accept fun t =>
    match stringFault ptr len with
    | some a => t.raise .srcRange (infoOf a)
    | none => (textLoop x len ptr x y t).finish

end Sys2Proof.Machine
end

