-- ==== Sys2Proof/Machine/Dispatch.lean ====
section
/-! DEFINITION. `exec`: one arm per command, each a direct call of its meaning (30_encoding.md R96). -/

namespace Sys2Proof.Machine

open Sys2Proof

def exec (i : Instr) (s : State) : Host.Outcome State Fault Refusal :=
  match i with
  | .blit ptr x y w h flags => Sys2Proof.Machine.execBlit ptr x y w h flags s
  | .blitSub ptr x y w h srcX srcY stride flags => Sys2Proof.Machine.execBlitSub ptr x y w h srcX srcY stride flags s
  | .line x1 y1 x2 y2 => Sys2Proof.Machine.execLine x1 y1 x2 y2 s
  | .hline x y len => Sys2Proof.Machine.execHline x y len s
  | .vline x y len => Sys2Proof.Machine.execVline x y len s
  | .oval x y w h => Sys2Proof.Machine.execOval x y w h s
  | .rect x y w h => Sys2Proof.Machine.execRect x y w h s
  | .text ptr len x y => Sys2Proof.Machine.execText ptr len x y s
  | .tone frequency duration volume flags => Sys2Proof.Machine.execTone frequency duration volume flags s
  | .diskr ptr count => Sys2Proof.Machine.execDiskr ptr count s
  | .diskw ptr count => Sys2Proof.Machine.execDiskw ptr count s
  | .trace ptr len => Sys2Proof.Machine.execTrace ptr len s

end Sys2Proof.Machine
end

