-- ==== Sys2Proof/Machine/Cartridge.lean ====
section
/-! DEFINITION. The cartridge port (10_state.md R21): the memory sub-port (20_memory.md R66 to R70) and
the command sub-port (30_encoding.md R90, 10_state.md R42). -/

namespace Sys2Proof.Machine

open Sys2Proof

/-- `CRead(a, n)` (20_memory.md R66 to R70): a value that is performed is answered zero-extended.
A read is never dropped: that verdict is of writes only. -/
def cartRead (a : BitVec 16) (n : Width) (s : State) : Host.Outcome State Fault Refusal :=
  match portVerdict s.fault.set a.toNat n .read with
  | .notAccepted => .fault .accessNotAccepted
  | .raises f => .next (s.raise f (a.setWidth 32))
  | .dropped => .next s.finish
  | .performed =>
    .next (s.answerCart (.data (BitVec.ofNat 32 (s.mem.readLE a.toNat (bytesOf n)))))

/-- `CWrite(a, n, v)` (20_memory.md R66 to R70). -/
def cartWrite (a : BitVec 16) (n : Width) (v : Word) (s : State) :
    Host.Outcome State Fault Refusal :=
  match portVerdict s.fault.set a.toNat n .write with
  | .notAccepted => .fault .accessNotAccepted
  | .raises f => .next (s.raise f (a.setWidth 32))
  | .dropped => .next s.finish
  | .performed => .next (s.setMem (s.mem.writeLE a.toNat (bytesOf n) v.toNat)).finish

/-- The latches after the first `n` operand words are supplied: the later ones keep their value
(10_state.md R42; log entry 13). -/
def latchFirst (n : Nat) (new old : Operands) : Operands where
  op0 := if 0 < n then new.op0 else old.op0
  op1 := if 1 < n then new.op1 else old.op1
  op2 := if 2 < n then new.op2 else old.op2
  op3 := if 3 < n then new.op3 else old.op3
  op4 := if 4 < n then new.op4 else old.op4
  op5 := if 5 < n then new.op5 else old.op5
  op6 := if 6 < n then new.op6 else old.op6
  op7 := if 7 < n then new.op7 else old.op7
  op8 := if 8 < n then new.op8 else old.op8

/-- The state with a command's words latched: CMD, and the operands its opcode counts
(10_state.md R42). -/
def State.latch (s : State) (cmd : Word) (ops : Operands) : State :=
  match operandCount cmd with
  | some n => s.setLatches cmd (latchFirst n ops s.op)
  | none => s.setLatches cmd s.op

/-- The issue of a command (30_encoding.md R90): not accepted while FAULT.set = 1; the words are
latched and the engine decodes the latches; a reserved command word raises BadCommand with the word
(R97, R98); any other runs. -/
def issueCommand (cmd : Word) (ops : Operands) (s : State) : Host.Outcome State Fault Refusal :=
  if s.fault.set then .fault .commandNotAccepted
  else
    match decodeLatches (s.latch cmd ops).cmd (s.latch cmd ops).op with
    | none => .next ((s.latch cmd ops).raise .badCommand cmd)
    | some i => exec i (s.latch cmd ops)

/-- One step of the cartridge (70_reset_and_hazards.md R258). -/
def cartStep (o : CartOp) (s : State) : Host.Outcome State Fault Refusal :=
  match o with
  | .read a n => cartRead a n s
  | .write a n v => cartWrite a n v s
  | .command cmd ops => issueCommand cmd ops s

end Sys2Proof.Machine
end

