-- ==== Sys2Proof/Machine/HostPort.lean ====
section
/-! DEFINITION. The host port (10_state.md R21): the six operations of 60_exceptions.md R238. None is
performed during a callback (R239): the step asks the host only when no callback runs. -/

namespace Sys2Proof.Machine

open Sys2Proof

/-- The memory after HReset (10_state.md R47, 70_reset_and_hazards.md R250): PALETTE and DRAW_COLORS
take the parameters; the input registers and general memory, unspecified there, take the values the
host's plan names; every other byte its reset contents. -/
def resetMemory (c : Config) (u : Unspecified) : Memory :=
  let m : Memory := []
  let m := m.writeBytes 0x19A0 u.image
  let m := m.writeReg .mouseButtons u.mouseButtons.toNat
  let m := m.writeReg .mouseY u.mouseY.toNat
  let m := m.writeReg .mouseX u.mouseX.toNat
  let m := m.writeReg .gamepad4 u.gamepad4.toNat
  let m := m.writeReg .gamepad3 u.gamepad3.toNat
  let m := m.writeReg .gamepad2 u.gamepad2.toNat
  let m := m.writeReg .gamepad1 u.gamepad1.toNat
  let m := m.writeReg .drawColors c.resetDrawColors.toNat
  let m := m.writeReg .palette3 c.resetPalette3.toNat
  let m := m.writeReg .palette2 c.resetPalette2.toNat
  let m := m.writeReg .palette1 c.resetPalette1.toNat
  m.writeReg .palette0 c.resetPalette0.toNat

/-- HReset (70_reset_and_hazards.md R250, 10_state.md R47): every item takes its reset value, DISK is
not touched. It is the only way out of a fault (60_exceptions.md R229). What already left on the
service ports, and the host's further plan, are outside the block. -/
def hostReset (u : Unspecified) (s : State) : State where
  mem := resetMemory s.cfg u
  cmd := u.cmd
  op := u.op
  fault := { set := false, code := u.code, info := u.info }
  disk := s.disk
  callback := none
  host := s.host
  events := s.events
  cpAnswer := .idle
  hpAnswer := .done
  cfg := s.cfg

/-- HInput (70_reset_and_hazards.md R255). -/
def inputMemory (m : Memory) (g1 g2 g3 g4 : Byte) (mx my : BitVec 16) (mb : Byte) : Memory :=
  let m := m.writeReg .gamepad1 g1.toNat
  let m := m.writeReg .gamepad2 g2.toNat
  let m := m.writeReg .gamepad3 g3.toNat
  let m := m.writeReg .gamepad4 g4.toNat
  let m := m.writeReg .mouseX mx.toNat
  let m := m.writeReg .mouseY my.toNat
  m.writeReg .mouseButtons mb.toNat

/-- FB_CLEAR_VALUE in all 6400 framebuffer bytes (00_scope.md R8, 70_reset_and_hazards.md R257). -/
def clearedMemory (m : Memory) : Memory := m.writeBytes 0xA0 (List.replicate 6400 0#8)

/-- HFrameStart (70_reset_and_hazards.md R257). -/
def frameStartMemory (s : State) : Memory :=
  if s.preservesFramebuffer then s.mem else clearedMemory s.mem

/-- What HPresent answers (70_reset_and_hazards.md R259). -/
def pictureOf (s : State) : HostAnswer :=
  .picture (s.mem.readBytes 0xA0 6400)
    [BitVec.ofNat 32 (s.mem.readReg .palette0), BitVec.ofNat 32 (s.mem.readReg .palette1),
      BitVec.ofNat 32 (s.mem.readReg .palette2), BitVec.ofNat 32 (s.mem.readReg .palette3)]
    s.systemFlags (BitVec.ofNat 8 (s.mem.readReg .netplay))

/-- A host operation that is not performed while FAULT.set = 1 (60_exceptions.md R228). -/
def State.perform (s : State) (run : State → State) : Host.Outcome State Fault Refusal :=
  if s.fault.set then .fault .hostOpNotPerformed else .next (run s)

/-- One step of the host (60_exceptions.md R238). -/
def hostStep (o : HostOp) (s : State) : Host.Outcome State Fault Refusal :=
  match o with
  | .reset u => .next (hostReset u s)
  | .input g1 g2 g3 g4 mx my mb =>
    s.perform fun t => (t.setMem (inputMemory t.mem g1 g2 g3 g4 mx my mb)).answerHost .done
  | .frameStart => s.perform fun t => (t.setMem (frameStartMemory t)).answerHost .done
  | .callback body => s.perform fun t => t.setCallback (some body)
  | .present => .next (s.answerHost (pictureOf s))
  | .readFault => .next (s.answerHost (.latch s.fault))

end Sys2Proof.Machine
end

