-- ==== Sys2Proof/Machine/Step.lean ====
section
/-! DEFINITION. One step of the machine (00_scope.md R18): one cartridge access, one complete command,
the return of a callback, one host operation, or nothing. -/

namespace Sys2Proof.Machine

open Sys2Proof

/-- The agent that moves is plain data in the state (20_memory.md R75): while a callback runs, the
cartridge takes its turn (70_reset_and_hazards.md R258); while none runs, the host takes its next
operation. With no operation to come the block simply holds its state (60_exceptions.md R243; log entry
12). DESIGN CHOICE: the callback's return is a step of its own, and the one at which the host port
answers done to HCallback; 00_scope.md R18 lists no such step (log entry 16). -/
def step (s : State) : Host.Outcome State Fault Refusal :=
  match s.callback with
  | some p =>
    match p.turn with
    | .acts o rest => cartStep o (s.setCallback (some rest))
    | .computes => .next s
    | .returns => .next ((s.setCallback none).answerHost .done)
  | none =>
    match s.host with
    | o :: rest => hostStep o (s.setHost rest)
    | [] => .next s

/-- The state in which the very next step issues the command whose table bits are `w` (every bit above
`nbits` zero): a callback is running and the cartridge's next operation is that command. The block
fetches nothing itself (10_state.md R43); log entry 1 says how a program comes to run. -/
def State.withFetchWord (s : State) (nbits w : Nat) : State :=
  let p := s.callback.getD { next := [], again := none }
  s.setCallback (some { p with
    next := CartOp.command ((tableWords nbits w).getD 0 0#32)
      (operandsOf ((tableWords nbits w).drop 1)) :: p.next })

end Sys2Proof.Machine
end

