-- ==== Sys2Proof/Safety.lean ====
section
/-! DEFINITION. What counts as a safe run: "A faulted state is never a successful end of a run"
(60_exceptions.md R228); the invariant of the machine; and the terms the statements are made in, written
from the spec's formulas on bytes and numbers, not from the model's own operations. -/

namespace Sys2Proof.Machine

open Sys2Proof

/-- The block is not faulted (10_state.md R44). -/
def State.safe (s : State) : Bool := !s.fault.set

/-- The next `n` steps all answer a next state, and none of the states is faulted. -/
def safeFor : Nat → State → Bool
  | 0, s => s.safe
  | n + 1, s =>
    s.safe && match step s with
      | .next t => safeFor n t
      | .fault _ => false
      | .refused _ => false

/-- The state after `n` steps that all answer a next state. -/
def runFor : Nat → State → Option State
  | 0, s => some s
  | n + 1, s =>
    match step s with
    | .next t => runFor n t
    | .fault _ => none
    | .refused _ => none

/-- A byte 10_state.md R38 reserves: 0x0000 to 0x0003 and 0x0021 to 0x009F. -/
def reservedByte (a : Nat) : Prop := a ≤ 0x03 ∨ (0x21 ≤ a ∧ a ≤ 0x9F)

/-- The invariant of the machine: the memory is canonical; the blob fits DISK_CAP (10_state.md R45); a
fault has ended the callback (70_reset_and_hazards.md R258) and its code is one of the five
(60_exceptions.md R222); the reserved bytes hold 0x00 (10_state.md R38). -/
structure State.Inv (s : State) : Prop where
  memory : s.mem.wf = true
  blob : s.disk.length ≤ s.cfg.diskCap
  ended : s.fault.set = true → s.callback = none
  code : s.fault.set = true → 1 ≤ s.fault.code.toNat ∧ s.fault.code.toNat ≤ 5
  reserved : ∀ a, reservedByte a → s.readByte a = 0#8

end Sys2Proof.Machine

namespace Sys2Proof.Claims

open Sys2Proof Sys2Proof.Machine

/-- FB(px, py) (10_state.md R40), from the byte and its lane. -/
def pixelAt (s : State) (px py : Nat) : Nat :=
  (s.readByte (0xA0 + (py * 160 + px) / 4)).toNat / 4 ^ (px % 4) % 4

/-- The nibble of the role of pixel value `v`, role v + 1, of DRAW_COLORS in its two little-endian
bytes (10_state.md R29, R31, 20_memory.md R60). -/
def nibbleAt (s : State) (v : Nat) : Nat :=
  ((s.readByte 0x14).toNat + 256 * (s.readByte 0x15).toNat) / 16 ^ v % 16

/-- What a pixel plotted with the role of value `v` holds afterwards: its old slot where the nibble is
0, slot (n - 1) mod 4 otherwise (10_state.md R32). -/
def inked (s : State) (v old : Nat) : Nat :=
  if nibbleAt s v = 0 then old else (nibbleAt s v - 1) % 4

/-- A drawing command that completes: `done`, nothing changed but the memory, and in the memory no byte
outside 0x00A0 to 0x199F (40_pixel_pipeline.md R130, R132). -/
def onlyDrew (s t : State) : Prop :=
  t = (s.setMem t.mem).answerCart .done ∧
    ∀ a, a < 0xA0 ∨ 0x199F < a → t.readByte a = s.readByte a

/-- A fault taken in `s`: FAULT written, the callback ended, `fault` answered, nothing else changed
(60_exceptions.md R221, R227; log entry 2 for the callback). -/
def faulted (s : State) (code : BitVec 8) (info : Word) : State :=
  { s with
    fault := { set := true, code := code, info := info }
    callback := none
    cpAnswer := .fault }

/-- The target of sprite column `i`, row `j` (41_blit.md R142). -/
def spriteTarget (flags : Word) (x y : Int) (i j : Nat) : Int × Int :=
  if flags.getLsbD 3 then (x + j, y + i) else (x + i, y + j)

/-- The effective horizontal mirror (41_blit.md R141). -/
def mirrorsX (xinv : Bool) (flags : Word) : Bool :=
  flags.getLsbD 1 != (flags.getLsbD 3 && xinv)

/-- The source pixel number of sprite column `i`, row `j` (41_blit.md R141, R142, R144). -/
def spriteNumber (xinv : Bool) (flags : Word) (w h srcX srcY stride i j : Nat) : Nat :=
  (srcY + if flags.getLsbD 2 then h - 1 - j else j) * stride +
    (srcX + if mirrorsX xinv flags then w - 1 - i else i)

/-- The address of the byte of source pixel `n` (41_blit.md R143). -/
def spriteByte (flags : Word) (ptr n : Nat) : Nat := ptr + if flags.getLsbD 0 then n / 4 else n / 8

/-- The value of source pixel `n` (41_blit.md R143). -/
def spriteValue (s : State) (flags : Word) (ptr n : Nat) : Nat :=
  let byte := (s.readByte (spriteByte flags ptr n)).toNat
  if flags.getLsbD 0 then byte / 4 ^ (3 - n % 4) % 4 else byte / 2 ^ (7 - n % 8) % 2

/-- A coordinate pair on the 160 by 160 screen (40_pixel_pipeline.md R121). -/
def visible (p : Int × Int) : Prop := 0 ≤ p.1 ∧ p.1 < 160 ∧ 0 ≤ p.2 ∧ p.2 < 160

/-- The byte address a blit reads for a sprite pixel whose target is on the screen
(41_blit.md R145). -/
def samples (xinv : Bool) (flags : Word) (ptr : Nat) (x y : Int) (w h srcX srcY stride a : Nat) :
    Prop :=
  ∃ i j, i < w ∧ j < h ∧ visible (spriteTarget flags x y i j) ∧
    a = spriteByte flags ptr (spriteNumber xinv flags w h srcX srcY stride i j)

/-- A point of RECT's box, and on its outline (43_shapes.md R176). -/
def inBox (x y : Int) (w h : Nat) (px py : Int) : Prop :=
  x ≤ px ∧ px ≤ x + w - 1 ∧ y ≤ py ∧ py ≤ y + h - 1

def onRing (x y : Int) (w h : Nat) (px py : Int) : Prop :=
  px = x ∨ px = x + w - 1 ∨ py = y ∨ py = y + h - 1

/-- OVAL's `Inside` (43_shapes.md R177). -/
def inEllipse (x y : Int) (w h : Nat) (px py : Int) : Prop :=
  1 ≤ w ∧ 1 ≤ h ∧
    (2 * (px - x) + 1 - w) ^ 2 * (h : Int) ^ 2 + (2 * (py - y) + 1 - h) ^ 2 * (w : Int) ^ 2 ≤
      (w : Int) ^ 2 * (h : Int) ^ 2

/-- A body pixel of OVAL with its four edge neighbours in the body (43_shapes.md R178). -/
def inEllipseFill (x y : Int) (w h : Nat) (px py : Int) : Prop :=
  inEllipse x y w h px py ∧ inEllipse x y w h (px + 1) py ∧ inEllipse x y w h (px - 1) py ∧
    inEllipse x y w h px (py + 1) ∧ inEllipse x y w h px (py - 1)

/-- The newlines among the characters 0 to k - 1 (44_text.md R191). -/
def linesBefore (c : Nat → Byte) : Nat → Nat
  | 0 => 0
  | k + 1 => linesBefore c k + if c k = 0x0A#8 then 1 else 0

/-- The characters since the last newline among the characters 0 to k - 1 (44_text.md R191). -/
def cellsBefore (c : Nat → Byte) : Nat → Nat
  | 0 => 0
  | k + 1 => if c k = 0x0A#8 then 0 else cellsBefore c k + 1

/-- Character `k` of a string as it stands in memory. -/
def charAt (s : State) (ptr k : Nat) : Byte := s.readByte (ptr + k)

/-- Character `k` of a string as TEXT reads it: in the state that TEXT of the characters before it
leaves (44_text.md R192, 70_reset_and_hazards.md R262). -/
def charRead (s : State) (ptr : Nat) (x y : Int) (k : Nat) : Byte :=
  match exec (.text ptr k x y) s with
  | .next u => u.readByte (ptr + k)
  | .fault _ => charAt s ptr k
  | .refused _ => charAt s ptr k

/-- Character `k` of a string has a glyph (44_text.md R191: the newline test comes first). -/
def glyphAt (s : State) (ptr k : Nat) : Prop :=
  charAt s ptr k ≠ 0x0A#8 ∧ s.cfg.fontFirst.toNat ≤ (charAt s ptr k).toNat ∧
    (charAt s ptr k).toNat ≤ s.cfg.fontLast.toNat

/-- The pixel of column `col`, row `row` of the cell of character `k` (44_text.md R192, R193). -/
def cellPixel (s : State) (ptr : Nat) (x y : Int) (k row col : Nat) : Int × Int :=
  (x + 8 * cellsBefore (charAt s ptr) k + col, y + 8 * linesBefore (charAt s ptr) k + row)

/-- The (address, width) pairs of the register table, and those the cartridge may write
(10_state.md R24). -/
def registerRows : List (Nat × Nat) :=
  [(0x04, 4), (0x08, 4), (0x0C, 4), (0x10, 4), (0x14, 2), (0x16, 1), (0x17, 1), (0x18, 1),
    (0x19, 1), (0x1A, 2), (0x1C, 2), (0x1E, 1), (0x1F, 1), (0x20, 1)]

def hostRows : List (Nat × Nat) :=
  [(0x16, 1), (0x17, 1), (0x18, 1), (0x19, 1), (0x1A, 2), (0x1C, 2), (0x1E, 1)]

/-- The eight drawing commands (40_pixel_pipeline.md, "every drawing command"). -/
def isDrawing : Instr → Bool
  | .blit .. => true
  | .blitSub .. => true
  | .line .. => true
  | .hline .. => true
  | .vline .. => true
  | .oval .. => true
  | .rect .. => true
  | .text .. => true
  | .tone .. => false
  | .diskr .. => false
  | .diskw .. => false
  | .trace .. => false

end Sys2Proof.Claims
end

