-- ==== Sys2Proof/Certificates/Slice0/Obligations.lean ====
section
/-! DEFINITION. The statements for the provers, each naming the rules of spec/ it rests on. Their terms
(`pixelAt`, `inked`, `onlyDrew`, ...) are in Sys2Proof/Safety.lean. -/

open Sys2Proof Sys2Proof.Machine Sys2Proof.Claims

/-! ### Encoding -/

/-- Serial forms the spec writes out decode to the command they stand for (30_encoding.md R92 to R96, R98):
95_test_vectors.md V1, V12, V23, V24, P5, V36, V30, V39, V3, V41, P2, V45, and the reserved word 0x101 of
V52. -/
def Obligations.SerialWordsDecode : Prop :=
  decodeBytes [0x01, 0, 0, 0, 0x00, 0x20, 0, 0, 0, 0, 0, 0, 0, 0, 0, 0, 0x08, 0, 0, 0, 0x01, 0, 0, 0,
      0, 0, 0, 0] = .ok (.blit 0x2000 0 0 8 1 0#32) [] ∧
  decodeBytes [0x02, 0, 0, 0, 0x00, 0x30, 0, 0, 0x0A, 0, 0, 0, 0x0A, 0, 0, 0, 0x06, 0, 0, 0,
      0x02, 0, 0, 0, 0x05, 0, 0, 0, 0x01, 0, 0, 0, 0x10, 0, 0, 0, 0, 0, 0, 0] =
    .ok (.blitSub 0x3000 10 10 6 2 5 1 16 0#32) [] ∧
  decodeBytes [0x03, 0, 0, 0, 0xFE, 0xFF, 0xFF, 0xFF, 0xFF, 0xFF, 0xFF, 0xFF, 0x03, 0, 0, 0,
      0x01, 0, 0, 0] = .ok (.line (-2) (-1) 3 1) [] ∧
  decodeBytes [0x04, 0, 0, 0, 0xFD, 0xFF, 0xFF, 0xFF, 0, 0, 0, 0, 0x06, 0, 0, 0] =
    .ok (.hline (-3) 0 6) [] ∧
  decodeBytes [0x05, 0, 0, 0, 0x0A, 0, 0, 0, 0x9D, 0, 0, 0, 0x05, 0, 0, 0] =
    .ok (.vline 10 157 5) [] ∧
  decodeBytes [0x06, 0, 0, 0, 0x01, 0, 0, 0, 0x01, 0, 0, 0, 0x06, 0, 0, 0, 0x04, 0, 0, 0] =
    .ok (.oval 1 1 6 4) [] ∧
  decodeBytes [0x07, 0, 0, 0, 0x01, 0, 0, 0, 0x01, 0, 0, 0, 0x05, 0, 0, 0, 0x04, 0, 0, 0] =
    .ok (.rect 1 1 5 4) [] ∧
  decodeBytes [0x08, 0, 0, 0, 0x00, 0x20, 0, 0, 0x05, 0, 0, 0, 0xFC, 0xFF, 0xFF, 0xFF, 0, 0, 0, 0] =
    .ok (.text 0x2000 5 (-4) 0) [] ∧
  decodeBytes [0x09, 0, 0, 0, 0xB8, 0x01, 0, 0, 0x3C, 0, 0, 0, 0x28, 0, 0, 0, 0x10, 0, 0, 0] =
    .ok (.tone 440#32 60#32 40#32 16#32) [] ∧
  decodeBytes [0x0A, 0, 0, 0, 0x00, 0x40, 0, 0, 0x08, 0, 0, 0] = .ok (.diskr 0x4000 8) [] ∧
  decodeBytes [0x0B, 0, 0, 0, 0x00, 0x40, 0, 0, 0x04, 0, 0, 0] = .ok (.diskw 0x4000 4) [] ∧
  decodeBytes [0x0C, 0, 0, 0, 0x00, 0x50, 0, 0, 0x02, 0, 0, 0] = .ok (.trace 0x5000 2) [] ∧
  decodeBytes [0x01, 0x01, 0, 0] = .badCommand 0x101#32

/-- 30_encoding.md R92 to R94, R96: the serial form of every well-formed command, whatever bytes
follow it, decodes to that command with every operand, and leaves those bytes. -/
def Obligations.DecodeOfEncode : Prop :=
  ∀ (i : Instr) (rest : List Byte), i.wellFormed = true →
    decodeBytes (encode i ++ rest) = .ok i rest

/-- 30_encoding.md R92 to R94, R96: what the decoder accepts is well formed, and is the serial form of
the command it answers, so no two byte strings of one length mean one command. -/
def Obligations.EncodeOfDecode : Prop :=
  ∀ (bs rest : List Byte) (i : Instr), decodeBytes bs = .ok i rest →
    i.wellFormed = true ∧ bs = encode i ++ rest

/-- 30_encoding.md R96 to R98 (the spec's decisions D2, D23): a command word selects a command exactly
when its whole value is 0x01 to 0x0C, whatever the operand latches hold. -/
def Obligations.ReservedWordsSelectNothing : Prop :=
  ∀ (cmd : Word) (o : Operands),
    (decodeLatches cmd o = none ↔ cmd.toNat = 0 ∨ 12 < cmd.toNat) ∧
      (operandCount cmd = none ↔ cmd.toNat = 0 ∨ 12 < cmd.toNat)

/-! ### The step and the two ports -/

/-- 30_encoding.md R90, 20_memory.md R76: when the cartridge's next operation is a command whose latched
words decode to `i`, and the block is not faulted, the step is `exec i` at the state with the
operation taken from the cartridge's plan and the words latched. -/
def Obligations.StepRunsDecodedCommand : Prop :=
  ∀ (s : State) (cmd : Word) (ops : Operands) (p q : CartPlan) (i : Instr),
    s.callback = some p → p.turn = .acts (.command cmd ops) q → s.fault.set = false →
    decodeLatches cmd ((s.setCallback (some q)).latch cmd ops).op = some i →
    step s = exec i ((s.setCallback (some q)).latch cmd ops)

/-- 10_state.md R42: the issue of an accepted command that answers a next state leaves CMD holding the
command word, the first n operand latches the words supplied and the others their old value (that the
others keep theirs is the model's reading, log entry 13). -/
def Obligations.CommandLatchesItsOperands : Prop :=
  ∀ (s t : State) (cmd : Word) (ops : Operands) (p q : CartPlan) (n : Nat),
    s.callback = some p → p.turn = .acts (.command cmd ops) q → operandCount cmd = some n →
    step s = .next t →
    t.cmd = cmd ∧
      t.op.op0 = ops.op0 ∧ t.op.op1 = ops.op1 ∧
      t.op.op2 = (if 2 < n then ops.op2 else s.op.op2) ∧
      t.op.op3 = (if 3 < n then ops.op3 else s.op.op3) ∧
      t.op.op4 = (if 4 < n then ops.op4 else s.op.op4) ∧
      t.op.op5 = (if 5 < n then ops.op5 else s.op.op5) ∧
      t.op.op6 = (if 6 < n then ops.op6 else s.op.op6) ∧
      t.op.op7 = (if 7 < n then ops.op7 else s.op.op7) ∧
      t.op.op8 = (if 8 < n then ops.op8 else s.op.op8)

/-- 00_scope.md R18, 20_memory.md R75, 60_exceptions.md R230, 70_reset_and_hazards.md R258: whose turn it is.
While a callback runs the cartridge takes its next operation; when none is left it starts again on those
it repeats, or only computes, or returns; otherwise the host takes its next operation. The plans
are the model's (log entries 1 and 14), so is that the return is a step of its own (log entry 16), and
that with nothing to come nothing changes (log entry 12). -/
def Obligations.StepTakesTurns : Prop :=
  ∀ (s : State),
    (∀ o rest again, s.callback = some { next := o :: rest, again := again } →
      step s = cartStep o (s.setCallback (some { next := rest, again := again }))) ∧
    (∀ o rest, s.callback = some { next := [], again := some (o :: rest) } →
      step s = cartStep o (s.setCallback (some { next := rest, again := some (o :: rest) }))) ∧
    (s.callback = some { next := [], again := some [] } → step s = .next s) ∧
    (s.callback = some { next := [], again := none } →
      step s = .next ((s.setCallback none).answerHost .done)) ∧
    (∀ o rest, s.callback = none → s.host = o :: rest → step s = hostStep o (s.setHost rest)) ∧
    (s.callback = none → s.host = [] → step s = .next s)

/-- 30_encoding.md R97, R98, 60_exceptions.md R222 (decisions D2, D23): a reserved command word raises
BadCommand, code 1, with the word as info; no byte of memory or blob changes and nothing is emitted.
The callback's end and the latching of CMD: log entries 2 and 13. -/
def Obligations.ReservedWordRaisesBadCommand : Prop :=
  ∀ (s : State) (cmd : Word) (ops : Operands) (p q : CartPlan),
    s.callback = some p → p.turn = .acts (.command cmd ops) q → s.fault.set = false →
    cmd.toNat = 0 ∨ 12 < cmd.toNat →
    step s = .next (faulted { s with cmd := cmd } 1#8 cmd)

/-- 20_memory.md R60, R61, R66 to R70 (decisions D1, D21, D22): a CRead inside the 64 KB that starts at
or above 0x00A0, at any alignment, or hits a register row exactly, completes; byte k of its answer is
the byte at a + k, and no other bit of the answer is set; nothing else changes. -/
def Obligations.CartReadAnswersBytes : Prop :=
  ∀ (s : State) (a : BitVec 16) (n : Width),
    s.fault.set = false → a.toNat + bytesOf n ≤ 0x10000 →
    (0xA0 ≤ a.toNat ∨ (a.toNat, bytesOf n) ∈ registerRows) →
    ∃ v : Word, cartRead a n s = .next (s.answerCart (.data v)) ∧ v.toNat < 256 ^ bytesOf n ∧
      ∀ k, k < bytesOf n → v.toNat / 256 ^ k % 256 = (s.readByte (a.toNat + k)).toNat

/-- 20_memory.md R60, R61, R66 to R70 (decisions D1, D21, D22): a CWrite inside the 64 KB that starts at
or above 0x00A0, or hits a register row the cartridge may write, completes; byte k of the value lands
at a + k; every other byte, and everything but the memory, is unchanged. -/
def Obligations.CartWriteStoresBytes : Prop :=
  ∀ (s : State) (a : BitVec 16) (n : Width) (v : Word),
    s.fault.set = false → a.toNat + bytesOf n ≤ 0x10000 →
    (0xA0 ≤ a.toNat ∨
      ((a.toNat, bytesOf n) ∈ registerRows ∧ (a.toNat, bytesOf n) ∉ hostRows)) →
    ∃ t, cartWrite a n v s = .next t ∧ t = (s.setMem t.mem).answerCart .done ∧
      (∀ k, k < bytesOf n → (t.readByte (a.toNat + k)).toNat = v.toNat / 256 ^ k % 256) ∧
      ∀ b, b < a.toNat ∨ a.toNat + bytesOf n ≤ b → t.readByte b = s.readByte b

/-- 20_memory.md R68, 70_reset_and_hazards.md R263 (decision D21): a CWrite to a host-owned register row
answers done and changes nothing. -/
def Obligations.CartWriteToHostRowDropped : Prop :=
  ∀ (s : State) (a : BitVec 16) (n : Width) (v : Word),
    s.fault.set = false → (a.toNat, bytesOf n) ∈ hostRows →
    cartWrite a n v s = .next (s.answerCart .done)

/-- 20_memory.md R67, 60_exceptions.md R222 (decisions D21, D23): an access at or below 0x009F that is no
register row raises BadAccess, code 2, with the address as info, and changes nothing else.
The callback's end: log entry 2. -/
def Obligations.CartAccessOffTheRowsRaisesBadAccess : Prop :=
  ∀ (s : State) (a : BitVec 16) (n : Width) (v : Word),
    s.fault.set = false → a.toNat ≤ 0x9F → (a.toNat, bytesOf n) ∉ registerRows →
    cartRead a n s = .next (faulted s 2#8 (a.setWidth 32)) ∧
      cartWrite a n v s = .next (faulted s 2#8 (a.setWidth 32))

/-- 20_memory.md R66, 60_exceptions.md R222 (decisions D22, D23): an access that would pass 0xFFFF raises
AddrRange, code 3, with the address as info, and changes nothing else: it never wraps.
The callback's end: log entry 2. -/
def Obligations.CartAccessPastEndRaisesAddrRange : Prop :=
  ∀ (s : State) (a : BitVec 16) (n : Width) (v : Word),
    s.fault.set = false → 0xFFFF < a.toNat + bytesOf n - 1 →
    cartRead a n s = .next (faulted s 3#8 (a.setWidth 32)) ∧
      cartWrite a n v s = .next (faulted s 3#8 (a.setWidth 32))

/-- 70_reset_and_hazards.md R255: HInput stores the four gamepad bytes, the two little-endian mouse
coordinates and the mouse buttons, and changes nothing else (but the model's own `host` and `hpAnswer`). -/
def Obligations.HostInputDepositsTheSnapshot : Prop :=
  ∀ (s : State) (g1 g2 g3 g4 mb : Byte) (mx my : BitVec 16) (rest : List HostOp),
    s.callback = none → s.host = .input g1 g2 g3 g4 mx my mb :: rest → s.fault.set = false →
    ∃ t, step s = .next t ∧
      t = ((s.setMem t.mem).setHost rest).answerHost t.hpAnswer ∧
      t.readByte 0x16 = g1 ∧ t.readByte 0x17 = g2 ∧ t.readByte 0x18 = g3 ∧ t.readByte 0x19 = g4 ∧
      (t.readByte 0x1A).toNat + 256 * (t.readByte 0x1B).toNat = mx.toNat ∧
      (t.readByte 0x1C).toNat + 256 * (t.readByte 0x1D).toNat = my.toNat ∧
      t.readByte 0x1E = mb ∧
      ∀ a, a < 0x16 ∨ 0x1E < a → t.readByte a = s.readByte a

/-- 10_state.md R24, R25 (decision D1): a register as a value is the little-endian number in its bytes,
two's complement in MOUSE_X and MOUSE_Y and unsigned in every other row; as a target it keeps the low
bytes of what is written, and a write leaves the bytes outside its row. -/
def Obligations.RegistersAreLittleEndianTypedFields : Prop :=
  ∀ (m : Memory),
    (∀ row ∈ regTable, ∀ v b,
      (b < row.address ∨ row.address + bytesOf row.width ≤ b →
        (m.writeReg row.reg v).read b = m.read b) ∧
      (m.writeReg row.reg v).readLE row.address (bytesOf row.width) =
        v % 256 ^ bytesOf row.width) ∧
    regTable.map (fun row => (row.address, bytesOf row.width)) = registerRows ∧
    (∀ row ∈ regTable, row.reg ≠ .mouseX → row.reg ≠ .mouseY →
      m.regValue row.reg = m.readLE row.address (bytesOf row.width)) ∧
    ∀ row ∈ regTable, row.reg = .mouseX ∨ row.reg = .mouseY →
      m.regValue row.reg =
        if (m.read (row.address + 1)).toNat < 128 then
          ((m.read row.address).toNat + 256 * (m.read (row.address + 1)).toNat : Int)
        else (m.read row.address).toNat + 256 * (m.read (row.address + 1)).toNat - 65536

/-- 70_reset_and_hazards.md R257 (decision D25): HFrameStart clears all 6400 framebuffer bytes if
SYSTEM_FLAGS bit 0 is 0, and changes no byte if it is 1; no byte outside the framebuffer ever. -/
def Obligations.FrameStartClearsUnlessPreserved : Prop :=
  ∀ (s : State) (rest : List HostOp),
    s.callback = none → s.host = .frameStart :: rest → s.fault.set = false →
    ∃ t, step s = .next t ∧
      t = ((s.setMem t.mem).setHost rest).answerHost .done ∧
      (∀ a, a < 0xA0 ∨ 0x199F < a → t.readByte a = s.readByte a) ∧
      ∀ a, 0xA0 ≤ a → a ≤ 0x199F →
        t.readByte a = if (s.readByte 0x1F).toNat % 2 = 0 then 0#8 else s.readByte a

/-- 70_reset_and_hazards.md R250, 10_state.md R45, R47 (decisions D1, D19, D24): HReset is accepted
faulted or not; it clears FAULT.set, zeroes the reserved bytes, SYSTEM_FLAGS, NETPLAY and the
framebuffer, gives PALETTE and DRAW_COLORS their parameters, and keeps DISK; every item R47 calls
unspecified holds whatever the host's plan names (log entry 9).
That the events stay is log entry 11. -/
def Obligations.ResetSetsEveryItem : Prop :=
  ∀ (s : State) (u : Unspecified) (rest : List HostOp),
    s.callback = none → s.host = .reset u :: rest →
    ∃ t, step s = .next t ∧ t.fault.set = false ∧ t.callback = none ∧ t.host = rest ∧
      t.disk = s.disk ∧ t.cfg = s.cfg ∧ t.events = s.events ∧
      (∀ a, reservedByte a → t.readByte a = 0#8) ∧
      t.readByte 0x1F = 0#8 ∧ t.readByte 0x20 = 0#8 ∧
      (∀ a, 0xA0 ≤ a → a ≤ 0x199F → t.readByte a = 0#8) ∧
      t.mem.readLE 0x04 4 = s.cfg.resetPalette0.toNat ∧
      t.mem.readLE 0x08 4 = s.cfg.resetPalette1.toNat ∧
      t.mem.readLE 0x0C 4 = s.cfg.resetPalette2.toNat ∧
      t.mem.readLE 0x10 4 = s.cfg.resetPalette3.toNat ∧
      t.mem.readLE 0x14 2 = s.cfg.resetDrawColors.toNat ∧
      t.readByte 0x16 = u.gamepad1 ∧ t.readByte 0x17 = u.gamepad2 ∧ t.readByte 0x18 = u.gamepad3 ∧
      t.readByte 0x19 = u.gamepad4 ∧ t.mem.readLE 0x1A 2 = u.mouseX.toNat ∧
      t.mem.readLE 0x1C 2 = u.mouseY.toNat ∧ t.readByte 0x1E = u.mouseButtons ∧
      t.cmd = u.cmd ∧ t.op = u.op ∧ t.fault.code = u.code ∧ t.fault.info = u.info ∧
      ∀ k, k < u.image.length → k < 58976 → t.readByte (0x19A0 + k) = u.image.getD k 0#8

/-- 70_reset_and_hazards.md R259, 60_exceptions.md R228: HPresent works faulted or not, answers the 6400
framebuffer bytes, the four PALETTE entries, SYSTEM_FLAGS and NETPLAY as they stand, and changes
nothing. -/
def Obligations.PresentAnswersThePicture : Prop :=
  ∀ (s : State) (rest : List HostOp), s.callback = none → s.host = .present :: rest →
    ∃ fb pal flags net,
      step s = .next ((s.setHost rest).answerHost (.picture fb pal flags net)) ∧
      fb.length = 6400 ∧ (∀ k, k < 6400 → fb.getD k 0#8 = s.readByte (0xA0 + k)) ∧
      pal.map BitVec.toNat =
        [s.mem.readLE 0x04 4, s.mem.readLE 0x08 4, s.mem.readLE 0x0C 4, s.mem.readLE 0x10 4] ∧
      flags = s.readByte 0x1F ∧ net = s.readByte 0x20

/-- 60_exceptions.md R228, R238, 70_reset_and_hazards.md R258: HReadFault works faulted or not and
answers FAULT, changing nothing; HCallback, in an unfaulted block, opens the cartridge's window. -/
def Obligations.ReadFaultAnswersAndCallbackOpens : Prop :=
  ∀ (s : State) (rest : List HostOp), s.callback = none →
    (s.host = .readFault :: rest →
      step s = .next ((s.setHost rest).answerHost (.latch s.fault))) ∧
    (∀ body, s.host = .callback body :: rest → s.fault.set = false →
      step s = .next ((s.setHost rest).setCallback (some body)))

/-- 60_exceptions.md R230, R239: a callback that never returns is no fault of the block. From a state in
whose callback the cartridge does `l` over and over, a step that answers leaves it so and gives the host
no move, unless the cartridge's own operation faulted. That the plan of such a callback is a list
repeated is the model's (log entry 14). -/
def Obligations.EndlessCallbackKeepsRunning : Prop :=
  ∀ (s t : State) (p : CartPlan) (l : List CartOp),
    s.callback = some p → p.again = some l → s.fault.set = false → step s = .next t →
    t.host = s.host ∧
      ((t.fault = s.fault ∧ ∃ q, t.callback = some q ∧ q.again = some l) ∨
        (t.fault.set = true ∧ t.cpAnswer = .fault))

/-! ### Faults -/

/-- 60_exceptions.md R228 (decision D23), 93 V7r ("stuck"): while FAULT.set = 1 no command, no CRead and
no CWrite is accepted, and HInput, HFrameStart and HCallback are not performed. -/
def Obligations.FaultedBlockAcceptsNothing : Prop :=
  ∀ (s : State), s.fault.set = true →
    (∀ i, exec i s = .fault .commandNotAccepted) ∧
    (∀ cmd ops, issueCommand cmd ops s = .fault .commandNotAccepted) ∧
    (∀ a n, cartRead a n s = .fault .accessNotAccepted) ∧
    (∀ a n v, cartWrite a n v s = .fault .accessNotAccepted) ∧
    (∀ g1 g2 g3 g4 mx my mb,
      hostStep (.input g1 g2 g3 g4 mx my mb) s = .fault .hostOpNotPerformed) ∧
    hostStep .frameStart s = .fault .hostOpNotPerformed ∧
    ∀ body, hostStep (.callback body) s = .fault .hostOpNotPerformed

/-- 10_state.md R44, 60_exceptions.md R228, R229 (decision D23): from a faulted state every step that
answers keeps FAULT, the memory and the blob, unless it is HReset, which clears FAULT.set. -/
def Obligations.FaultStaysUntilReset : Prop :=
  ∀ (s t : State), s.fault.set = true → step s = .next t →
    (t.fault = s.fault ∧ t.mem = s.mem ∧ t.disk = s.disk ∧ t.events = s.events) ∨
      (s.callback = none ∧ t.fault.set = false ∧ t.disk = s.disk ∧
        ∃ u rest, s.host = .reset u :: rest)

/-- 60_exceptions.md R221, R222, R227, 40_pixel_pipeline.md R130 (decisions D12, D23, D28): a command that
answers a next state either leaves FAULT clear and the callback running as it was, or is exactly a
SrcRange (code 4) or DstRange (code 5) fault taken in the state it started from, with no other
effect.
The callback's end: log entry 2. -/
def Obligations.CommandFaultsArePrecise : Prop :=
  ∀ (i : Instr) (s t : State), exec i s = .next t →
    (t.fault = s.fault ∧ t.callback = s.callback ∧ t.cpAnswer ≠ .fault) ∨
      ∃ code info, (code = 4#8 ∨ code = 5#8) ∧ t = faulted s code info

/-- 30_encoding.md R105, 45_host_calls.md R205, R206 (decision D19): a command that completes without a
fault answers done, DISKR and DISKW with the number of bytes transferred, at most count: stored in
memory by DISKR, in the blob that DISKW puts in the place of the old one; every other command with no
result. -/
def Obligations.CommandsAnswerTheirResult : Prop :=
  ∀ (i : Instr) (s t : State), i.wellFormed = true → exec i s = .next t → t.fault.set = false →
    (∀ ptr count, i = .diskr ptr count →
      ∃ r : Word, t.cpAnswer = .result r ∧ r.toNat ≤ count ∧ r.toNat = min count s.disk.length ∧
        (∀ k, k < r.toNat → t.readByte (ptr + k) = s.disk.getD k 0#8) ∧
        ∀ a, a < ptr ∨ ptr + r.toNat ≤ a → t.readByte a = s.readByte a) ∧
    (∀ ptr count, i = .diskw ptr count →
      ∃ r : Word, t.cpAnswer = .result r ∧ r.toNat ≤ count ∧ r.toNat = t.disk.length) ∧
    ((∀ ptr count, i ≠ .diskr ptr count ∧ i ≠ .diskw ptr count) → t.cpAnswer = .done)

/-! ### Blits -/

/-- 41_blit.md R147 (W4's identity, section 3): BLIT is BLITSUB with srcX = srcY = 0 and stride = w. -/
def Obligations.BlitIsBlitSub : Prop :=
  ∀ (s : State) (ptr w h : Nat) (x y : Int) (flags : Word),
    exec (.blit ptr x y w h flags) s = exec (.blitSub ptr x y w h 0 0 w flags) s

/-- 41_blit.md R141 to R146 (decisions D4, D5, D7 to D12): BLITSUB whose sampled source bytes lie in
memory and outside the framebuffer completes; the pixel each sprite pixel targets on the screen takes
the slot of role value + 1, or keeps its slot where that nibble is 0; every other pixel, every byte
outside the framebuffer and everything but the memory is unchanged. -/
def Obligations.BlitSubDrawsSprite : Prop :=
  ∀ (s : State) (ptr w h srcX srcY stride : Nat) (x y : Int) (flags : Word),
    s.fault.set = false →
    (∀ a, samples s.cfg.rotateXinv flags ptr x y w h srcX srcY stride a →
      a ≤ 0xFFFF ∧ (a < 0xA0 ∨ 0x199F < a)) →
    ∃ t, exec (.blitSub ptr x y w h srcX srcY stride flags) s = .next t ∧ onlyDrew s t ∧
      ∀ px py : Nat, px < 160 → py < 160 →
        (∀ i j, i < w → j < h → spriteTarget flags x y i j = ((px : Int), (py : Int)) →
          pixelAt t px py =
            inked s (spriteValue s flags ptr
              (spriteNumber s.cfg.rotateXinv flags w h srcX srcY stride i j)) (pixelAt s px py)) ∧
        ((∀ i j, i < w → j < h → spriteTarget flags x y i j ≠ ((px : Int), (py : Int))) →
          pixelAt t px py = pixelAt s px py)

/-- 41_blit.md R141 to R147 (decisions D4, D5, D7 to D12): the same for BLIT, whose source rows are w
pixels long and start at pixel 0. -/
def Obligations.BlitDrawsSprite : Prop :=
  ∀ (s : State) (ptr w h : Nat) (x y : Int) (flags : Word),
    s.fault.set = false →
    (∀ a, samples s.cfg.rotateXinv flags ptr x y w h 0 0 w a →
      a ≤ 0xFFFF ∧ (a < 0xA0 ∨ 0x199F < a)) →
    ∃ t, exec (.blit ptr x y w h flags) s = .next t ∧ onlyDrew s t ∧
      ∀ px py : Nat, px < 160 → py < 160 →
        (∀ i j, i < w → j < h → spriteTarget flags x y i j = ((px : Int), (py : Int)) →
          pixelAt t px py =
            inked s (spriteValue s flags ptr
              (spriteNumber s.cfg.rotateXinv flags w h 0 0 w i j)) (pixelAt s px py)) ∧
        ((∀ i j, i < w → j < h → spriteTarget flags x y i j ≠ ((px : Int), (py : Int))) →
          pixelAt t px py = pixelAt s px py)

/-- 41_blit.md R145, R146, R148, 70_reset_and_hazards.md R262 (decisions D12, D13): BLITSUB whose sampled
bytes lie in memory completes wherever they lie, the framebuffer included, and only draws: a pixel no
sprite pixel targets keeps its slot. BLIT is an instance of it, `BlitIsBlitSub`. -/
def Obligations.BlitsCompleteOverAnySource : Prop :=
  ∀ (s : State) (ptr w h srcX srcY stride : Nat) (x y : Int) (flags : Word),
    s.fault.set = false →
    (∀ a, samples s.cfg.rotateXinv flags ptr x y w h srcX srcY stride a → a ≤ 0xFFFF) →
    ∃ t, exec (.blitSub ptr x y w h srcX srcY stride flags) s = .next t ∧ onlyDrew s t ∧
      ∀ px py : Nat, px < 160 → py < 160 →
        (∀ i j, i < w → j < h → spriteTarget flags x y i j ≠ ((px : Int), (py : Int))) →
        pixelAt t px py = pixelAt s px py

/-- 41_blit.md R141 to R146, R148, 70_reset_and_hazards.md R262 (decisions D4, D5, D7 to D13): what a blit
draws wherever in memory its source lies, the framebuffer included, whatever its flags. BLITSUB of one
pixel paints it with the source value as it stands in the state it runs from; a row of w + 1 pixels is
the first w and then the last, and h + 1 rows are the first h and then the last, each seeing what those
before it wrote. A mirrored part starts one source column (or row) further on. -/
def Obligations.BlitSourceOverlapFollowsTheOrder : Prop :=
  ∀ (s : State) (ptr w h srcX srcY stride : Nat) (x y : Int) (flags : Word),
    (s.fault.set = false →
      (visible (x, y) → spriteByte flags ptr (srcY * stride + srcX) ≤ 0xFFFF) →
      ∃ t, exec (.blitSub ptr x y 1 1 srcX srcY stride flags) s = .next t ∧ onlyDrew s t ∧
        ∀ px py : Nat, px < 160 → py < 160 →
          pixelAt t px py =
            if (px : Int) = x ∧ (py : Int) = y then
              inked s (spriteValue s flags ptr (srcY * stride + srcX)) (pixelAt s px py)
            else pixelAt s px py) ∧
    (∀ t, exec (.blitSub ptr x y (w + 1) 1 srcX srcY stride flags) s = .next t →
      t.fault.set = false →
      ∃ u, exec (.blitSub ptr x y w 1
          (srcX + if mirrorsX s.cfg.rotateXinv flags then 1 else 0) srcY stride flags) s = .next u ∧
        exec (.blitSub ptr (spriteTarget flags x y w 0).1 (spriteTarget flags x y w 0).2 1 1
          (srcX + if mirrorsX s.cfg.rotateXinv flags then 0 else w) srcY stride flags) u = .next t) ∧
    (∀ t, exec (.blitSub ptr x y w (h + 1) srcX srcY stride flags) s = .next t →
      t.fault.set = false →
      ∃ u, exec (.blitSub ptr x y w h srcX (srcY + if flags.getLsbD 2 then 1 else 0) stride flags) s =
          .next u ∧
        exec (.blitSub ptr (spriteTarget flags x y 0 h).1 (spriteTarget flags x y 0 h).2 w 1 srcX
          (srcY + if flags.getLsbD 2 then 0 else h) stride flags) u = .next t)

/-- 41_blit.md R145, R146, 60_exceptions.md R222 (decisions D12, D23): if a sampled source byte lies above
0xFFFF, BLITSUB raises SrcRange, code 4, with the least such address, saturated to 32 bits, before
writing anything. BLIT is an instance of it, `BlitIsBlitSub`.
The callback's end: log entry 2. -/
def Obligations.BlitSourceAboveMemoryRaisesSrcRange : Prop :=
  ∀ (s : State) (ptr w h srcX srcY stride a : Nat) (x y : Int) (flags : Word),
    s.fault.set = false →
    samples s.cfg.rotateXinv flags ptr x y w h srcX srcY stride a → 0xFFFF < a →
    (∀ b, samples s.cfg.rotateXinv flags ptr x y w h srcX srcY stride b → 0xFFFF < b → a ≤ b) →
    exec (.blitSub ptr x y w h srcX srcY stride flags) s =
      .next (faulted s 4#8 (BitVec.ofNat 32 (min a 0xFFFFFFFF)))

/-- 30_encoding.md R99 (decision D11): two blits whose flags differ only above bit 3 behave
identically. -/
def Obligations.BlitReservedFlagsAreIgnored : Prop :=
  ∀ (s : State) (ptr w h srcX srcY stride : Nat) (x y : Int) (f g : Word),
    f.toNat % 16 = g.toNat % 16 →
    exec (.blit ptr x y w h f) s = exec (.blit ptr x y w h g) s ∧
      exec (.blitSub ptr x y w h srcX srcY stride f) s =
        exec (.blitSub ptr x y w h srcX srcY stride g) s

/-! ### Lines and shapes -/

/-- 42_lines.md R160, R161 (decisions D4, D5, D14): LINE always completes; the points of its loop that
are on the screen take the slot of role 1, every other pixel keeps its slot, nothing else changes. -/
def Obligations.LineDrawsItsPoints : Prop :=
  ∀ (s : State) (x1 y1 x2 y2 : Int), s.fault.set = false →
    ∃ t, exec (.line x1 y1 x2 y2) s = .next t ∧ onlyDrew s t ∧
      ∀ px py : Nat, px < 160 → py < 160 →
        ((((px : Int), (py : Int)) ∈ linePoints x1 y1 x2 y2 →
          pixelAt t px py = inked s 0 (pixelAt s px py)) ∧
        (((px : Int), (py : Int)) ∉ linePoints x1 y1 x2 y2 →
          pixelAt t px py = pixelAt s px py))

/-- 42_lines.md R161, R164 (b) (decision D14): the points of LINE are max(|dx|, |dy|) + 1, start at the
endpoint with the smaller y (the first where they are equal), end at the other, and neighbours differ
by at most 1 in each coordinate, the row never decreasing. -/
def Obligations.LinePointsConnectTheEndpoints : Prop :=
  ∀ (x1 y1 x2 y2 : Int),
    (linePoints x1 y1 x2 y2).length = max (x2 - x1).natAbs (y2 - y1).natAbs + 1 ∧
    (linePoints x1 y1 x2 y2).head? = some (if y1 > y2 then (x2, y2) else (x1, y1)) ∧
    (linePoints x1 y1 x2 y2).getLast? = some (if y1 > y2 then (x1, y1) else (x2, y2)) ∧
    (linePoints x1 y1 x2 y2).IsChain fun p q =>
      -1 ≤ q.1 - p.1 ∧ q.1 - p.1 ≤ 1 ∧ 0 ≤ q.2 - p.2 ∧ q.2 - p.2 ≤ 1

/-- 42_lines.md R161 (decision D14): the points of LINE in closed form. With the endpoints ordered by row,
point k of a line with dx > dy lies in column x1 + sx * k, r rows down, r the least that makes the error
term dx div 2 - k * dy + r * dx at least 0; point k of any other line lies k rows down, c columns along, c
the least that makes -(dy div 2) + k * dx - c * dy at most 0. -/
def Obligations.LinePointsHaveAClosedForm : Prop :=
  ∀ (x1 y1 x2 y2 : Int),
    (y2 < y1 → linePoints x1 y1 x2 y2 = linePoints x2 y2 x1 y1) ∧
    (y1 ≤ y2 →
      let dx := (x2 - x1).natAbs
      let dy := (y2 - y1).natAbs
      let sx : Int := if x1 < x2 then 1 else -1
      (dy < dx → ∀ k, k ≤ dx →
        ∃ r : Nat, (linePoints x1 y1 x2 y2)[k]? = some (x1 + sx * k, y1 + r) ∧
          k * dy ≤ dx / 2 + r * dx ∧ ∀ q, q < r → dx / 2 + q * dx < k * dy) ∧
      (dx ≤ dy → ∀ k, k ≤ dy →
        ∃ c : Nat, (linePoints x1 y1 x2 y2)[k]? = some (x1 + sx * c, y1 + k) ∧
          k * dx ≤ dy / 2 + c * dy ∧ ∀ q, q < c → dy / 2 + q * dy < k * dx))

/-- 42_lines.md R161, "Tie-breaking made concrete", and 95_test_vectors.md V22: the smaller row is kept
in an x-major line, the smaller distance from the upper end in a y-major one. -/
def Obligations.LineTieBreaks : Prop :=
  linePoints 0 0 4 2 = [(0, 0), (1, 0), (2, 1), (3, 1), (4, 2)] ∧
  linePoints 0 0 2 4 = [(0, 0), (0, 1), (1, 2), (1, 3), (2, 4)] ∧
  linePoints 4 0 0 2 = [(4, 0), (3, 0), (2, 1), (1, 1), (0, 2)] ∧
  linePoints 5 2 0 0 = [(0, 0), (1, 0), (2, 1), (3, 1), (4, 2), (5, 2)]

/-- 42_lines.md R164 (a): LINE with its endpoints exchanged draws the same picture. -/
def Obligations.LineIsSymmetric : Prop :=
  ∀ (s : State) (x1 y1 x2 y2 : Int), s.fault.set = false →
    ∃ t u, exec (.line x1 y1 x2 y2) s = .next t ∧ exec (.line x2 y2 x1 y1) s = .next u ∧
      ∀ px py : Nat, px < 160 → py < 160 → pixelAt t px py = pixelAt u px py

/-- 42_lines.md R164 (c): a horizontal LINE to x + len - 1 is HLINE, a vertical one VLINE, for
len >= 1. -/
def Obligations.StraightLinesAreHlineAndVline : Prop :=
  ∀ (s : State) (x y : Int) (len : Nat), 1 ≤ len →
    exec (.line x y (x + len - 1) y) s = exec (.hline x y len) s ∧
      exec (.line x y x (y + len - 1)) s = exec (.vline x y len) s

/-- 42_lines.md R160, R162 (decisions D4, D5, D14): HLINE always completes and paints row y from column x
to x + len - 1, as far as it is on the screen, with role 1; nothing else changes. -/
def Obligations.HlineDraws : Prop :=
  ∀ (s : State) (x y : Int) (len : Nat), s.fault.set = false →
    ∃ t, exec (.hline x y len) s = .next t ∧ onlyDrew s t ∧
      ∀ px py : Nat, px < 160 → py < 160 →
        pixelAt t px py =
          if (py : Int) = y ∧ x ≤ px ∧ (px : Int) < x + len then inked s 0 (pixelAt s px py)
          else pixelAt s px py

/-- 42_lines.md R160, R163 (decisions D4, D5, D14): VLINE, the same with the axes exchanged. -/
def Obligations.VlineDraws : Prop :=
  ∀ (s : State) (x y : Int) (len : Nat), s.fault.set = false →
    ∃ t, exec (.vline x y len) s = .next t ∧ onlyDrew s t ∧
      ∀ px py : Nat, px < 160 → py < 160 →
        pixelAt t px py =
          if (px : Int) = x ∧ y ≤ py ∧ (py : Int) < y + len then inked s 0 (pixelAt s px py)
          else pixelAt s px py

/-- 43_shapes.md R175, R176 (decisions D4, D5, D15): RECT always completes; the outline of its box takes
role 1, the rest of the box role 2, as far as on the screen; nothing else changes. -/
def Obligations.RectDraws : Prop :=
  ∀ (s : State) (x y : Int) (w h : Nat), s.fault.set = false →
    ∃ t, exec (.rect x y w h) s = .next t ∧ onlyDrew s t ∧
      ∀ px py : Nat, px < 160 → py < 160 →
        (inBox x y w h px py → onRing x y w h px py →
          pixelAt t px py = inked s 0 (pixelAt s px py)) ∧
        (inBox x y w h px py → ¬ onRing x y w h px py →
          pixelAt t px py = inked s 1 (pixelAt s px py)) ∧
        (¬ inBox x y w h px py → pixelAt t px py = pixelAt s px py)

/-- 43_shapes.md R177, R178 (decisions D4, D5, D15, D16): OVAL always completes; the body pixels with an
edge neighbour outside take role 1, the other body pixels role 2, as far as on the screen; nothing
else changes. -/
def Obligations.OvalDraws : Prop :=
  ∀ (s : State) (x y : Int) (w h : Nat), s.fault.set = false →
    ∃ t, exec (.oval x y w h) s = .next t ∧ onlyDrew s t ∧
      ∀ px py : Nat, px < 160 → py < 160 →
        (inEllipse x y w h px py → ¬ inEllipseFill x y w h px py →
          pixelAt t px py = inked s 0 (pixelAt s px py)) ∧
        (inEllipseFill x y w h px py → pixelAt t px py = inked s 1 (pixelAt s px py)) ∧
        (¬ inEllipse x y w h px py → pixelAt t px py = pixelAt s px py)

/-- 43_shapes.md R177, R179 (b) (decision D16): the model's body test is the spec's inequality, and every
pixel that meets it lies in the box of the operands. -/
def Obligations.OvalBodyStaysInItsBox : Prop :=
  ∀ (x y px py : Int) (w h : Nat),
    (ovalInside x y w h px py = true ↔ inEllipse x y w h px py) ∧
      (inEllipse x y w h px py → inBox x y w h px py)

/-! ### Text -/

/-- 44_text.md R191 to R193 (decisions D4, D5, D17; the font as data, log entry 8): TEXT of a string in
memory and outside the framebuffer completes; each on-screen pixel of the cell of a character with a
glyph takes role 1 where the font has ink and role 2 where it has paper; every other pixel keeps its
slot, and nothing else changes. -/
def Obligations.TextDrawsItsGlyphs : Prop :=
  ∀ (s : State) (ptr len : Nat) (x y : Int), s.fault.set = false →
    len = 0 ∨ (ptr + len ≤ 0x10000 ∧ (ptr + len ≤ 0xA0 ∨ 0x199F < ptr)) →
    ∃ t, exec (.text ptr len x y) s = .next t ∧ onlyDrew s t ∧
      ∀ px py : Nat, px < 160 → py < 160 →
        (∀ k row col, k < len → row < 8 → col < 8 → glyphAt s ptr k →
          cellPixel s ptr x y k row col = ((px : Int), (py : Int)) →
          pixelAt t px py =
            inked s (if fontBit s.cfg (s.readByte (ptr + k)) row col then 0 else 1)
              (pixelAt s px py)) ∧
        ((∀ k row col, k < len → row < 8 → col < 8 → glyphAt s ptr k →
            cellPixel s ptr x y k row col ≠ ((px : Int), (py : Int))) →
          pixelAt t px py = pixelAt s px py)

/-- 44_text.md R191 to R193, 70_reset_and_hazards.md R262 (decisions D4, D5, D13, D17; the font as data, log
entry 8): what TEXT draws wherever in memory its string lies, the framebuffer included. It completes
and only draws; one character draws its glyph, if it has one, as it stands in the state it runs from;
n + 1 characters are the first n and then the last, read in the state they left, at the cursor they
left. -/
def Obligations.TextCompletesOverAnySource : Prop :=
  ∀ (s : State) (ptr len : Nat) (x y : Int), s.fault.set = false →
    (len = 0 ∨ ptr + len ≤ 0x10000 → ∃ t, exec (.text ptr len x y) s = .next t ∧ onlyDrew s t) ∧
    (ptr ≤ 0xFFFF →
      ∃ t, exec (.text ptr 1 x y) s = .next t ∧ onlyDrew s t ∧
        ∀ px py : Nat, px < 160 → py < 160 →
          (∀ row col : Nat, row < 8 → col < 8 → glyphAt s ptr 0 →
            (x + (col : Int), y + (row : Int)) = ((px : Int), (py : Int)) →
            pixelAt t px py =
              inked s (if fontBit s.cfg (s.readByte ptr) row col then 0 else 1) (pixelAt s px py)) ∧
          ((∀ row col : Nat, row < 8 → col < 8 → glyphAt s ptr 0 →
              (x + (col : Int), y + (row : Int)) ≠ ((px : Int), (py : Int))) →
            pixelAt t px py = pixelAt s px py)) ∧
    (∀ n, ptr + (n + 1) ≤ 0x10000 →
      ∃ u t, exec (.text ptr n x y) s = .next u ∧
        exec (.text (ptr + n) 1 (x + 8 * cellsBefore (charRead s ptr x y) n)
          (y + 8 * linesBefore (charRead s ptr x y) n)) u = .next t ∧
        exec (.text ptr (n + 1) x y) s = .next t)

/-- 44_text.md R192, 45_host_calls.md R206, R208, 60_exceptions.md R222 (decisions D17, D19, D20, D23): a
string of TEXT or TRACE, or the bytes DISKW would take, with a byte above 0xFFFF raises SrcRange, code
4, with the first such address; nothing else changes. That TEXT does so also where none of its cells is on
the screen is R192 followed over the last sentence of 40_pixel_pipeline.md R134: the model's choice,
log entry 17. The callback's end: log entry 2. -/
def Obligations.StringPastMemoryRaisesSrcRange : Prop :=
  ∀ (s : State) (ptr n : Nat) (x y : Int), s.fault.set = false → ptr < 2 ^ 32 →
    (1 ≤ n → 0x10000 < ptr + n →
      exec (.text ptr n x y) s = .next (faulted s 4#8 (BitVec.ofNat 32 (max ptr 0x10000))) ∧
      exec (.trace ptr n) s = .next (faulted s 4#8 (BitVec.ofNat 32 (max ptr 0x10000)))) ∧
    (1 ≤ min n s.cfg.diskCap → 0x10000 < ptr + min n s.cfg.diskCap →
      exec (.diskw ptr n) s = .next (faulted s 4#8 (BitVec.ofNat 32 (max ptr 0x10000))))

/-- 40_pixel_pipeline.md R134: a drawing command whose clipped footprint is empty answers done and changes
nothing else: a blit with no target on the screen, wherever its source; lines and shapes off the
screen or of no extent; TEXT of no character, or with every cell off the screen. The last for a string
in memory only: R192 checks the bytes of TEXT wherever its cells lie (log entry 17). -/
def Obligations.EmptyFootprintsChangeNothing : Prop :=
  ∀ (s : State), s.fault.set = false →
    (∀ ptr x y w h srcX srcY stride flags,
      (∀ i j, i < w → j < h → ¬ visible (spriteTarget flags x y i j)) →
      exec (.blitSub ptr x y w h srcX srcY stride flags) s = .next (s.answerCart .done) ∧
        exec (.blit ptr x y w h flags) s = .next (s.answerCart .done)) ∧
    (∀ x1 y1 x2 y2, (∀ p ∈ linePoints x1 y1 x2 y2, ¬ visible p) →
      exec (.line x1 y1 x2 y2) s = .next (s.answerCart .done)) ∧
    (∀ x y (len : Nat), (∀ k : Nat, k < len → ¬ visible (x + k, y)) →
      exec (.hline x y len) s = .next (s.answerCart .done)) ∧
    (∀ x y (len : Nat), (∀ k : Nat, k < len → ¬ visible (x, y + k)) →
      exec (.vline x y len) s = .next (s.answerCart .done)) ∧
    (∀ x y (w h : Nat), (∀ px py, inBox x y w h px py → ¬ visible (px, py)) →
      exec (.rect x y w h) s = .next (s.answerCart .done) ∧
        exec (.oval x y w h) s = .next (s.answerCart .done)) ∧
    ∀ ptr len x y, len = 0 ∨ ptr + len ≤ 0x10000 →
      (∀ k row col, k < len → row < 8 → col < 8 → glyphAt s ptr k →
        ¬ visible (cellPixel s ptr x y k row col)) →
      exec (.text ptr len x y) s = .next (s.answerCart .done)

/-! ### Host calls -/

/-- 45_host_calls.md R201: opcode 0x09 with four operand words is TONE of those words; it emits them
unchanged on the audio port, after whatever was emitted before, answers done, and changes nothing
else, whatever the words are. -/
def Obligations.ToneForwardsItsWords : Prop :=
  (operandCount 0x09#32 = some 4 ∧
    ∀ o : Operands, decodeLatches 0x09#32 o = some (.tone o.op0 o.op1 o.op2 o.op3)) ∧
  ∀ (s : State) (frequency duration volume flags : Word), s.fault.set = false →
    exec (.tone frequency duration volume flags) s =
      .next { s with
        events := s.events ++ [.tone frequency duration volume flags]
        cpAnswer := .done }

/-- 45_host_calls.md R205 (decision D19): with r = min(count, len(DISK)) and the r bytes in 0x00A0 to
0xFFFF, or r = 0, DISKR stores DISK[0..r-1] at ptr, answers r, and changes no other byte and nothing
else. -/
def Obligations.DiskrCopiesTheBlob : Prop :=
  ∀ (s : State) (ptr count : Nat), s.fault.set = false → count < 2 ^ 32 →
    min count s.disk.length = 0 ∨ (0xA0 ≤ ptr ∧ ptr + min count s.disk.length ≤ 0x10000) →
    ∃ t, exec (.diskr ptr count) s = .next t ∧
      t = (s.setMem t.mem).answerCart t.cpAnswer ∧
      (∃ r : Word, t.cpAnswer = .result r ∧ r.toNat = min count s.disk.length) ∧
      (∀ k, k < min count s.disk.length → t.readByte (ptr + k) = s.disk.getD k 0#8) ∧
      ∀ a, a < ptr ∨ ptr + min count s.disk.length ≤ a → t.readByte a = s.readByte a

/-- 45_host_calls.md R205, 60_exceptions.md R222 (decisions D19, D23): where the r bytes, r at least 1, do
not all lie in 0x00A0 to 0xFFFF, DISKR raises DstRange, code 5, with ptr, and changes nothing else.
The callback's end: log entry 2. -/
def Obligations.DiskrOutsideRaisesDstRange : Prop :=
  ∀ (s : State) (ptr count : Nat), s.fault.set = false → ptr < 2 ^ 32 →
    1 ≤ min count s.disk.length →
    ptr < 0xA0 ∨ 0xFFFF < ptr + min count s.disk.length - 1 →
    exec (.diskr ptr count) s = .next (faulted s 5#8 (BitVec.ofNat 32 ptr))

/-- 45_host_calls.md R206 (decision D19): with r = min(count, DISK_CAP) and the r bytes in memory, or
r = 0, DISKW replaces DISK by them, answers r, and changes nothing else. -/
def Obligations.DiskwReplacesTheBlob : Prop :=
  ∀ (s : State) (ptr count : Nat), s.fault.set = false → count < 2 ^ 32 →
    min count s.cfg.diskCap = 0 ∨ ptr + min count s.cfg.diskCap ≤ 0x10000 →
    ∃ d r, exec (.diskw ptr count) s = .next ((s.setDisk d).answerCart (.result r)) ∧
      r.toNat = min count s.cfg.diskCap ∧ d.length = min count s.cfg.diskCap ∧
      ∀ k, k < min count s.cfg.diskCap → d.getD k 0#8 = s.readByte (ptr + k)

/-- 45_host_calls.md R207: DISKW of N bytes and then DISKR of N bytes both answer N, and the destination
holds what the source held at the write. -/
def Obligations.DiskRoundTrip : Prop :=
  ∀ (s : State) (src dst n : Nat), s.fault.set = false → n < 2 ^ 32 → n ≤ s.cfg.diskCap →
    src + n ≤ 0x10000 → 0xA0 ≤ dst → dst + n ≤ 0x10000 →
    ∃ u t, exec (.diskw src n) s = .next u ∧ exec (.diskr dst n) u = .next t ∧
      u.cpAnswer = .result (BitVec.ofNat 32 n) ∧ t.cpAnswer = .result (BitVec.ofNat 32 n) ∧
      ∀ k, k < n → t.readByte (dst + k) = s.readByte (src + k)

/-- 45_host_calls.md R208 (decision D20): TRACE of a string in memory emits its bytes on the debug port,
answers done, and changes nothing else. -/
def Obligations.TraceForwardsTheString : Prop :=
  ∀ (s : State) (ptr len : Nat), s.fault.set = false → len = 0 ∨ ptr + len ≤ 0x10000 →
    ∃ bs, exec (.trace ptr len) s =
        .next { s with events := s.events ++ [.trace bs], cpAnswer := .done } ∧
      bs.length = len ∧ ∀ k, k < len → bs.getD k 0#8 = s.readByte (ptr + k)

/-! ### The whole machine -/

/-- The invariant (10_state.md R38, R45; 60_exceptions.md R222, R228) is kept by every step, from every
state that has it. That a fault ends the callback is the model's reading, log entry 2; the memory's
canonical form is the model's own. -/
def Obligations.InvariantIsKept : Prop :=
  ∀ (s t : State), s.Inv → step s = .next t → t.Inv

/-- The invariant holds right after reset (10_state.md R47). -/
def Obligations.InvariantAtReset : Prop := State.reset.Inv

/-- 00_scope.md R19: no step changes the configuration. -/
def Obligations.ConfigurationNeverChanges : Prop :=
  ∀ (s t : State), step s = .next t → t.cfg = s.cfg

/-- 10_state.md R30: no command changes DRAW_COLORS; a step that changes either of its two bytes is a
cartridge CWrite to row 4 (0x0014, 2 bytes) or HReset. -/
def Obligations.DrawColorsChangesOnlyByWriteOrReset : Prop :=
  (∀ (i : Instr) (s t : State), exec i s = .next t →
    t.readByte 0x14 = s.readByte 0x14 ∧ t.readByte 0x15 = s.readByte 0x15) ∧
  ∀ (s t : State), step s = .next t →
    t.readByte 0x14 ≠ s.readByte 0x14 ∨ t.readByte 0x15 ≠ s.readByte 0x15 →
    (∃ p v q, s.callback = some p ∧ p.turn = .acts (.write 0x14#16 .w2 v) q) ∨
      (s.callback = none ∧ ∃ u rest, s.host = .reset u :: rest)

/-- 10_state.md R38, R49, 20_memory.md R67, R68, R71: while a callback runs, no step changes a byte of the
gamepads or the mouse or a reserved byte; what a step can change in the register window (PALETTE,
DRAW_COLORS, SYSTEM_FLAGS, NETPLAY), only a CWrite changes. -/
def Obligations.InputRegistersConstantInCallback : Prop :=
  ∀ (s t : State) (p : CartPlan), s.callback = some p → step s = .next t →
    (∀ a, (0x16 ≤ a ∧ a ≤ 0x1E) ∨ reservedByte a → t.readByte a = s.readByte a) ∧
      ((∃ a, a ≤ 0x9F ∧ t.readByte a ≠ s.readByte a) →
        ∃ b n v q, p.turn = .acts (.write b n v) q)

/-- 20_memory.md R71, 40_pixel_pipeline.md R132, R133 (decisions D4, D5): a drawing command that answers a
next state changes no byte outside 0x00A0 to 0x199F, and every pixel keeps its slot or takes the slot
of a role whose nibble is not 0. -/
def Obligations.DrawnPixelsTakeRoleSlots : Prop :=
  ∀ (i : Instr) (s t : State), isDrawing i = true → exec i s = .next t →
    (∀ a, a < 0xA0 ∨ 0x199F < a → t.readByte a = s.readByte a) ∧
      ∀ px py : Nat, px < 160 → py < 160 →
        pixelAt t px py = pixelAt s px py ∨
          ∃ v, v < 4 ∧ nibbleAt s v ≠ 0 ∧ pixelAt t px py = (nibbleAt s v - 1) % 4

/-- 40_pixel_pipeline.md R131: with DRAW_COLORS = 0x0000 every drawing command leaves the memory
unchanged. -/
def Obligations.TransparentColorsDrawNothing : Prop :=
  ∀ (i : Instr) (s t : State), isDrawing i = true → exec i s = .next t →
    s.readByte 0x14 = 0#8 → s.readByte 0x15 = 0#8 → t.mem = s.mem
end

