-- ==== Sys2Proof/Laws/State.lean ====
section
/-! SUPPORT. One lemma per field per update of the state, so that no proof unfolds a record update. -/

namespace Sys2Proof.Machine

open Sys2Proof

/-! ### setMem -/

@[simp] theorem State.setMem_mem (s : State) (m : Memory) : (s.setMem m).mem = m := rfl
@[simp] theorem State.setMem_cmd (s : State) (m : Memory) : (s.setMem m).cmd = s.cmd := rfl
@[simp] theorem State.setMem_op (s : State) (m : Memory) : (s.setMem m).op = s.op := rfl
@[simp] theorem State.setMem_fault (s : State) (m : Memory) : (s.setMem m).fault = s.fault := rfl
@[simp] theorem State.setMem_disk (s : State) (m : Memory) : (s.setMem m).disk = s.disk := rfl
@[simp] theorem State.setMem_callback (s : State) (m : Memory) : (s.setMem m).callback = s.callback := rfl
@[simp] theorem State.setMem_host (s : State) (m : Memory) : (s.setMem m).host = s.host := rfl
@[simp] theorem State.setMem_events (s : State) (m : Memory) : (s.setMem m).events = s.events := rfl
@[simp] theorem State.setMem_cpAnswer (s : State) (m : Memory) : (s.setMem m).cpAnswer = s.cpAnswer := rfl
@[simp] theorem State.setMem_hpAnswer (s : State) (m : Memory) : (s.setMem m).hpAnswer = s.hpAnswer := rfl
@[simp] theorem State.setMem_cfg (s : State) (m : Memory) : (s.setMem m).cfg = s.cfg := rfl

/-! ### setLatches -/

@[simp] theorem State.setLatches_mem (s : State) (c : Word) (o : Operands) : (s.setLatches c o).mem = s.mem := rfl
@[simp] theorem State.setLatches_cmd (s : State) (c : Word) (o : Operands) : (s.setLatches c o).cmd = c := rfl
@[simp] theorem State.setLatches_op (s : State) (c : Word) (o : Operands) : (s.setLatches c o).op = o := rfl
@[simp] theorem State.setLatches_fault (s : State) (c : Word) (o : Operands) : (s.setLatches c o).fault = s.fault := rfl
@[simp] theorem State.setLatches_disk (s : State) (c : Word) (o : Operands) : (s.setLatches c o).disk = s.disk := rfl
@[simp] theorem State.setLatches_callback (s : State) (c : Word) (o : Operands) : (s.setLatches c o).callback = s.callback := rfl
@[simp] theorem State.setLatches_host (s : State) (c : Word) (o : Operands) : (s.setLatches c o).host = s.host := rfl
@[simp] theorem State.setLatches_events (s : State) (c : Word) (o : Operands) : (s.setLatches c o).events = s.events := rfl
@[simp] theorem State.setLatches_cpAnswer (s : State) (c : Word) (o : Operands) : (s.setLatches c o).cpAnswer = s.cpAnswer := rfl
@[simp] theorem State.setLatches_hpAnswer (s : State) (c : Word) (o : Operands) : (s.setLatches c o).hpAnswer = s.hpAnswer := rfl
@[simp] theorem State.setLatches_cfg (s : State) (c : Word) (o : Operands) : (s.setLatches c o).cfg = s.cfg := rfl

/-! ### setFault -/

@[simp] theorem State.setFault_mem (s : State) (f : FaultLatch) : (s.setFault f).mem = s.mem := rfl
@[simp] theorem State.setFault_cmd (s : State) (f : FaultLatch) : (s.setFault f).cmd = s.cmd := rfl
@[simp] theorem State.setFault_op (s : State) (f : FaultLatch) : (s.setFault f).op = s.op := rfl
@[simp] theorem State.setFault_fault (s : State) (f : FaultLatch) : (s.setFault f).fault = f := rfl
@[simp] theorem State.setFault_disk (s : State) (f : FaultLatch) : (s.setFault f).disk = s.disk := rfl
@[simp] theorem State.setFault_callback (s : State) (f : FaultLatch) : (s.setFault f).callback = s.callback := rfl
@[simp] theorem State.setFault_host (s : State) (f : FaultLatch) : (s.setFault f).host = s.host := rfl
@[simp] theorem State.setFault_events (s : State) (f : FaultLatch) : (s.setFault f).events = s.events := rfl
@[simp] theorem State.setFault_cpAnswer (s : State) (f : FaultLatch) : (s.setFault f).cpAnswer = s.cpAnswer := rfl
@[simp] theorem State.setFault_hpAnswer (s : State) (f : FaultLatch) : (s.setFault f).hpAnswer = s.hpAnswer := rfl
@[simp] theorem State.setFault_cfg (s : State) (f : FaultLatch) : (s.setFault f).cfg = s.cfg := rfl

/-! ### setDisk -/

@[simp] theorem State.setDisk_mem (s : State) (d : List Byte) : (s.setDisk d).mem = s.mem := rfl
@[simp] theorem State.setDisk_cmd (s : State) (d : List Byte) : (s.setDisk d).cmd = s.cmd := rfl
@[simp] theorem State.setDisk_op (s : State) (d : List Byte) : (s.setDisk d).op = s.op := rfl
@[simp] theorem State.setDisk_fault (s : State) (d : List Byte) : (s.setDisk d).fault = s.fault := rfl
@[simp] theorem State.setDisk_disk (s : State) (d : List Byte) : (s.setDisk d).disk = d := rfl
@[simp] theorem State.setDisk_callback (s : State) (d : List Byte) : (s.setDisk d).callback = s.callback := rfl
@[simp] theorem State.setDisk_host (s : State) (d : List Byte) : (s.setDisk d).host = s.host := rfl
@[simp] theorem State.setDisk_events (s : State) (d : List Byte) : (s.setDisk d).events = s.events := rfl
@[simp] theorem State.setDisk_cpAnswer (s : State) (d : List Byte) : (s.setDisk d).cpAnswer = s.cpAnswer := rfl
@[simp] theorem State.setDisk_hpAnswer (s : State) (d : List Byte) : (s.setDisk d).hpAnswer = s.hpAnswer := rfl
@[simp] theorem State.setDisk_cfg (s : State) (d : List Byte) : (s.setDisk d).cfg = s.cfg := rfl

/-! ### setCallback -/

@[simp] theorem State.setCallback_mem (s : State) (c : Option CartPlan) : (s.setCallback c).mem = s.mem := rfl
@[simp] theorem State.setCallback_cmd (s : State) (c : Option CartPlan) : (s.setCallback c).cmd = s.cmd := rfl
@[simp] theorem State.setCallback_op (s : State) (c : Option CartPlan) : (s.setCallback c).op = s.op := rfl
@[simp] theorem State.setCallback_fault (s : State) (c : Option CartPlan) : (s.setCallback c).fault = s.fault := rfl
@[simp] theorem State.setCallback_disk (s : State) (c : Option CartPlan) : (s.setCallback c).disk = s.disk := rfl
@[simp] theorem State.setCallback_callback (s : State) (c : Option CartPlan) : (s.setCallback c).callback = c := rfl
@[simp] theorem State.setCallback_host (s : State) (c : Option CartPlan) : (s.setCallback c).host = s.host := rfl
@[simp] theorem State.setCallback_events (s : State) (c : Option CartPlan) : (s.setCallback c).events = s.events := rfl
@[simp] theorem State.setCallback_cpAnswer (s : State) (c : Option CartPlan) : (s.setCallback c).cpAnswer = s.cpAnswer := rfl
@[simp] theorem State.setCallback_hpAnswer (s : State) (c : Option CartPlan) : (s.setCallback c).hpAnswer = s.hpAnswer := rfl
@[simp] theorem State.setCallback_cfg (s : State) (c : Option CartPlan) : (s.setCallback c).cfg = s.cfg := rfl

/-! ### setHost -/

@[simp] theorem State.setHost_mem (s : State) (h : List HostOp) : (s.setHost h).mem = s.mem := rfl
@[simp] theorem State.setHost_cmd (s : State) (h : List HostOp) : (s.setHost h).cmd = s.cmd := rfl
@[simp] theorem State.setHost_op (s : State) (h : List HostOp) : (s.setHost h).op = s.op := rfl
@[simp] theorem State.setHost_fault (s : State) (h : List HostOp) : (s.setHost h).fault = s.fault := rfl
@[simp] theorem State.setHost_disk (s : State) (h : List HostOp) : (s.setHost h).disk = s.disk := rfl
@[simp] theorem State.setHost_callback (s : State) (h : List HostOp) : (s.setHost h).callback = s.callback := rfl
@[simp] theorem State.setHost_host (s : State) (h : List HostOp) : (s.setHost h).host = h := rfl
@[simp] theorem State.setHost_events (s : State) (h : List HostOp) : (s.setHost h).events = s.events := rfl
@[simp] theorem State.setHost_cpAnswer (s : State) (h : List HostOp) : (s.setHost h).cpAnswer = s.cpAnswer := rfl
@[simp] theorem State.setHost_hpAnswer (s : State) (h : List HostOp) : (s.setHost h).hpAnswer = s.hpAnswer := rfl
@[simp] theorem State.setHost_cfg (s : State) (h : List HostOp) : (s.setHost h).cfg = s.cfg := rfl

/-! ### emit -/

@[simp] theorem State.emit_mem (s : State) (e : Event) : (s.emit e).mem = s.mem := rfl
@[simp] theorem State.emit_cmd (s : State) (e : Event) : (s.emit e).cmd = s.cmd := rfl
@[simp] theorem State.emit_op (s : State) (e : Event) : (s.emit e).op = s.op := rfl
@[simp] theorem State.emit_fault (s : State) (e : Event) : (s.emit e).fault = s.fault := rfl
@[simp] theorem State.emit_disk (s : State) (e : Event) : (s.emit e).disk = s.disk := rfl
@[simp] theorem State.emit_callback (s : State) (e : Event) : (s.emit e).callback = s.callback := rfl
@[simp] theorem State.emit_host (s : State) (e : Event) : (s.emit e).host = s.host := rfl
@[simp] theorem State.emit_events (s : State) (e : Event) : (s.emit e).events = s.events ++ [e] := rfl
@[simp] theorem State.emit_cpAnswer (s : State) (e : Event) : (s.emit e).cpAnswer = s.cpAnswer := rfl
@[simp] theorem State.emit_hpAnswer (s : State) (e : Event) : (s.emit e).hpAnswer = s.hpAnswer := rfl
@[simp] theorem State.emit_cfg (s : State) (e : Event) : (s.emit e).cfg = s.cfg := rfl

/-! ### answerCart -/

@[simp] theorem State.answerCart_mem (s : State) (r : CartAnswer) : (s.answerCart r).mem = s.mem := rfl
@[simp] theorem State.answerCart_cmd (s : State) (r : CartAnswer) : (s.answerCart r).cmd = s.cmd := rfl
@[simp] theorem State.answerCart_op (s : State) (r : CartAnswer) : (s.answerCart r).op = s.op := rfl
@[simp] theorem State.answerCart_fault (s : State) (r : CartAnswer) : (s.answerCart r).fault = s.fault := rfl
@[simp] theorem State.answerCart_disk (s : State) (r : CartAnswer) : (s.answerCart r).disk = s.disk := rfl
@[simp] theorem State.answerCart_callback (s : State) (r : CartAnswer) : (s.answerCart r).callback = s.callback := rfl
@[simp] theorem State.answerCart_host (s : State) (r : CartAnswer) : (s.answerCart r).host = s.host := rfl
@[simp] theorem State.answerCart_events (s : State) (r : CartAnswer) : (s.answerCart r).events = s.events := rfl
@[simp] theorem State.answerCart_cpAnswer (s : State) (r : CartAnswer) : (s.answerCart r).cpAnswer = r := rfl
@[simp] theorem State.answerCart_hpAnswer (s : State) (r : CartAnswer) : (s.answerCart r).hpAnswer = s.hpAnswer := rfl
@[simp] theorem State.answerCart_cfg (s : State) (r : CartAnswer) : (s.answerCart r).cfg = s.cfg := rfl

/-! ### answerHost -/

@[simp] theorem State.answerHost_mem (s : State) (r : HostAnswer) : (s.answerHost r).mem = s.mem := rfl
@[simp] theorem State.answerHost_cmd (s : State) (r : HostAnswer) : (s.answerHost r).cmd = s.cmd := rfl
@[simp] theorem State.answerHost_op (s : State) (r : HostAnswer) : (s.answerHost r).op = s.op := rfl
@[simp] theorem State.answerHost_fault (s : State) (r : HostAnswer) : (s.answerHost r).fault = s.fault := rfl
@[simp] theorem State.answerHost_disk (s : State) (r : HostAnswer) : (s.answerHost r).disk = s.disk := rfl
@[simp] theorem State.answerHost_callback (s : State) (r : HostAnswer) : (s.answerHost r).callback = s.callback := rfl
@[simp] theorem State.answerHost_host (s : State) (r : HostAnswer) : (s.answerHost r).host = s.host := rfl
@[simp] theorem State.answerHost_events (s : State) (r : HostAnswer) : (s.answerHost r).events = s.events := rfl
@[simp] theorem State.answerHost_cpAnswer (s : State) (r : HostAnswer) : (s.answerHost r).cpAnswer = s.cpAnswer := rfl
@[simp] theorem State.answerHost_hpAnswer (s : State) (r : HostAnswer) : (s.answerHost r).hpAnswer = r := rfl
@[simp] theorem State.answerHost_cfg (s : State) (r : HostAnswer) : (s.answerHost r).cfg = s.cfg := rfl

end Sys2Proof.Machine
end

