-- ==== Sys2Proof/Laws/Memory.lean ====
section
/-! SUPPORT. The laws of the memory: what a read answers after each memory operation, and that every
operation keeps the canonical form. -/

namespace Sys2Proof.Machine

open Sys2Proof

/-! ### Read after write -/

theorem Memory.lookup_insertCell (m : Memory) (a b : Nat) (v : Byte) :
    (m.insertCell a v).lookup b = if b = a then some v else m.lookup b := by
  induction m with
  | nil => simp [Memory.insertCell, Memory.lookup]
  | cons c t ih =>
    obtain ⟨d, u⟩ := c
    unfold Memory.insertCell
    split
    · simp [Memory.lookup]
    · split
      · subst_vars; simp only [Memory.lookup]; split <;> rfl
      · simp only [Memory.lookup, ih]
        by_cases h : b = d
        · subst h; simp; omega
        · simp [h]

theorem Memory.wfFrom_mono {m : Memory} {lo lo' : Nat} (h : m.wfFrom lo = true) (hl : lo' ≤ lo) :
    m.wfFrom lo' = true := by
  cases m with
  | nil => rfl
  | cons c t =>
    simp only [Memory.wfFrom, Bool.and_eq_true, decide_eq_true_eq] at h ⊢
    exact ⟨⟨⟨by omega, h.1.1.2⟩, h.1.2⟩, h.2⟩

theorem Memory.lookup_dropCell (m : Memory) (a b : Nat) :
    (m.dropCell a).lookup b = if b = a then none else m.lookup b := by
  induction m with
  | nil => simp [Memory.dropCell, Memory.lookup]
  | cons c t ih =>
    obtain ⟨d, u⟩ := c
    unfold Memory.dropCell
    by_cases hd : a = d
    · subst hd
      by_cases hb : b = a
      · rw [if_pos rfl, ih]
        simp [hb]
      · simp [hb, ih, Memory.lookup]
    · simp only [if_neg hd, Memory.lookup, ih]
      by_cases hb : b = d
      · subst hb; simp [Ne.symm hd]
      · simp [hb]

/-- What a read answers after a write: the value written there, and what it answered before
everywhere else. -/
theorem Memory.read_write (m : Memory) (a b : Nat) (v : Byte) :
    (m.write a v).read b = if b = a ∧ a < 0x10000 then v else m.read b := by
  unfold Memory.write
  by_cases ha : a < 0x10000
  · rw [if_pos ha]
    by_cases hv : v = Memory.initial a
    · rw [if_pos hv]
      simp only [Memory.read, Memory.lookup_dropCell]
      by_cases hb : b = a
      · subst hb; simp [ha, hv]
      · simp [hb]
    · rw [if_neg hv]
      simp only [Memory.read, Memory.lookup_insertCell]
      by_cases hb : b = a
      · subst hb; simp [ha]
      · simp [hb]
  · rw [if_neg ha]; simp [ha]

theorem Memory.read_write_same (m : Memory) {a : Nat} (ha : a < 0x10000) (v : Byte) : (m.write a v).read a = v := by
  simp [Memory.read_write, ha]

theorem Memory.read_write_other (m : Memory) {a b : Nat} (hb : b ≠ a) (v : Byte) : (m.write a v).read b = m.read b := by
  simp [Memory.read_write, hb]

/-! ### The canonical form is kept -/

theorem Memory.wfFrom_insertCell {m : Memory} {lo a : Nat} {v : Byte} (h : m.wfFrom lo = true)
    (hl : lo ≤ a) (ha : a < 0x10000) (hv : v ≠ Memory.initial a) :
    (m.insertCell a v).wfFrom lo = true := by
  induction m generalizing lo with
  | nil => simp [Memory.insertCell, Memory.wfFrom, hl, ha, hv]
  | cons c t ih =>
    obtain ⟨d, u⟩ := c
    simp only [Memory.wfFrom, Bool.and_eq_true, decide_eq_true_eq] at h
    unfold Memory.insertCell
    split
    · simp only [Memory.wfFrom, Bool.and_eq_true, decide_eq_true_eq]
      exact ⟨⟨⟨hl, ha⟩, hv⟩, ⟨⟨by omega, h.1.1.2⟩, h.1.2⟩, h.2⟩
    · split
      · subst_vars
        simp only [Memory.wfFrom, Bool.and_eq_true, decide_eq_true_eq]
        exact ⟨⟨⟨hl, ha⟩, hv⟩, h.2⟩
      · simp only [Memory.wfFrom, Bool.and_eq_true, decide_eq_true_eq]
        exact ⟨h.1, ih h.2 (by omega)⟩

theorem Memory.wfFrom_dropCell {m : Memory} {lo : Nat} (h : m.wfFrom lo = true) (a : Nat) :
    (m.dropCell a).wfFrom lo = true := by
  induction m generalizing lo with
  | nil => rfl
  | cons c t ih =>
    obtain ⟨d, u⟩ := c
    simp only [Memory.wfFrom, Bool.and_eq_true, decide_eq_true_eq] at h
    unfold Memory.dropCell
    split
    · exact Memory.wfFrom_mono (ih h.2) (by omega)
    · simp only [Memory.wfFrom, Bool.and_eq_true, decide_eq_true_eq]
      exact ⟨h.1, ih h.2⟩

/-- A write keeps the canonical form. -/
theorem Memory.wf_write {m : Memory} (h : m.wf = true) (a : Nat) (v : Byte) :
    (m.write a v).wf = true := by
  unfold Memory.write
  split
  · split
    · exact Memory.wfFrom_dropCell h a
    · exact Memory.wfFrom_insertCell h (Nat.zero_le _) ‹_› ‹_›
  · exact h

theorem Memory.wf_writeBytes {m : Memory} (h : m.wf = true) (a : Nat) (vs : List Byte) :
    (m.writeBytes a vs).wf = true := by
  induction vs generalizing a with
  | nil => exact h
  | cons v t ih => exact Memory.wf_write (ih (a + 1)) a v

theorem Memory.wf_writeLE {m : Memory} (h : m.wf = true) (a n v : Nat) :
    (m.writeLE a n v).wf = true :=
  Memory.wf_writeBytes h a _

theorem Memory.wf_writeReg {m : Memory} (h : m.wf = true) (r : Reg) (v : Nat) :
    (m.writeReg r v).wf = true :=
  Memory.wf_writeLE h _ _ v

theorem Memory.wf_nil : Memory.wf [] = true := rfl

/-! ### Runs of bytes -/

/-- What a read answers after a run of bytes is written. -/
theorem Memory.read_writeBytes (m : Memory) (a b : Nat) (vs : List Byte) :
    (m.writeBytes a vs).read b =
      if a ≤ b ∧ b < a + vs.length ∧ b < 0x10000 then vs.getD (b - a) 0 else m.read b := by
  induction vs generalizing a with
  | nil => simp only [Memory.writeBytes, List.length_nil]; rw [if_neg (by omega)]
  | cons v t ih =>
    simp only [Memory.writeBytes, Memory.read_write, ih,
      List.length_cons]
    by_cases hb : b = a
    · subst hb
      by_cases hr : b < 0x10000
      · simp [hr]
      · simp [hr]
    · by_cases hlt : a < b
      · have he : b - a = (b - (a + 1)) + 1 := by omega
        rw [he, List.getD_cons_succ]
        simp only [hb, false_and, if_false]
        congr 1
        simp only [eq_iff_iff]
        omega
      · simp [hb, show ¬ (a + 1 ≤ b) by omega, show ¬ (a ≤ b) by omega]

@[simp] theorem bytesLE_length (n v : Nat) : (bytesLE n v).length = n := by simp [bytesLE]

@[simp] theorem byteOf_toNat_zero (b : Byte) : byteOf b.toNat 0 = b := by
  simp [byteOf]

theorem bytesLE_getD {n v k : Nat} (h : k < n) : (bytesLE n v).getD k 0 = byteOf v k := by
  simp [bytesLE, List.getD, h]

/-- What a read answers after a little-endian store (20_memory.md R60). -/
theorem Memory.read_writeLE (m : Memory) (a n v b : Nat) :
    (m.writeLE a n v).read b =
      if a ≤ b ∧ b < a + n ∧ b < 0x10000 then byteOf v (b - a) else m.read b := by
  unfold Memory.writeLE
  rw [Memory.read_writeBytes, bytesLE_length]
  split
  · rename_i hc; exact bytesLE_getD (by omega)
  · rfl

/-- What a read answers after a register is written (10_state.md R25). -/
theorem Memory.read_writeReg (m : Memory) (r : Reg) (v b : Nat) :
    (m.writeReg r v).read b =
      if (rowOf r).address ≤ b ∧ b < (rowOf r).address + bytesOf (rowOf r).width then
        byteOf v (b - (rowOf r).address) else m.read b := by
  have hr : (rowOf r).address + bytesOf (rowOf r).width ≤ 0x10000 := by cases r <;> decide
  unfold Memory.writeReg
  rw [Memory.read_writeLE]
  exact if_congr ⟨fun h => ⟨h.1, h.2.1⟩, fun h => ⟨h.1, h.2, by omega⟩⟩ rfl rfl

@[simp] theorem Memory.readBytes_length (m : Memory) (a n : Nat) :
    (m.readBytes a n).length = n := by simp [Memory.readBytes]

theorem Memory.readBytes_getD {m : Memory} {a n k : Nat} (h : k < n) :
    (m.readBytes a n).getD k 0 = m.read (a + k) := by
  simp [Memory.readBytes, List.getD, h]

/-- A little-endian read fits its bytes. -/
theorem Memory.readLE_lt (m : Memory) (a n : Nat) : m.readLE a n < 256 ^ n := by
  induction n generalizing a with
  | zero => simp [Memory.readLE]
  | succ n ih =>
    have h1 := ih (a + 1)
    have h2 := (m.read a).isLt
    simp only [Memory.readLE, pow_succ]
    omega

/-- A little-endian read depends on its bytes only. -/
theorem Memory.readLE_congr {m m' : Memory} {a n : Nat}
    (h : ∀ b, a ≤ b → b < a + n → m'.read b = m.read b) : m'.readLE a n = m.readLE a n := by
  induction n generalizing a with
  | zero => rfl
  | succ n ih =>
    simp only [Memory.readLE]
    rw [h a (by omega) (by omega), ih fun b hb hb' => h b (by omega) (by omega)]

/-- Byte `k` of a little-endian read (20_memory.md R60). -/
theorem Memory.byteOf_readLE {m : Memory} {a n k : Nat} (h : k < n) :
    byteOf (m.readLE a n) k = m.read (a + k) := by
  induction n generalizing a k with
  | zero => omega
  | succ n ih =>
    have hb := (m.read a).isLt
    cases k with
    | zero =>
      apply BitVec.eq_of_toNat_eq
      simp only [byteOf, Memory.readLE, BitVec.toNat_ofNat, Nat.mul_zero, Nat.shiftRight_zero,
        Nat.add_zero]
      omega
    | succ k =>
      have := ih (a := a + 1) (k := k) (by omega)
      rw [show a + (k + 1) = a + 1 + k by omega, ← this]
      simp only [byteOf, Memory.readLE, Nat.shiftRight_eq_div_pow]
      congr 1
      rw [show 8 * (k + 1) = 8 + 8 * k by omega, pow_add, ← Nat.div_div_eq_div_mul]
      congr 1
      omega

/-! ### Equal memories are equal data -/

theorem Memory.lookup_of_wfFrom {m : Memory} {lo a : Nat} (h : m.wfFrom lo = true) (ha : a < lo) :
    m.lookup a = none := by
  induction m generalizing lo with
  | nil => rfl
  | cons c t ih =>
    obtain ⟨d, u⟩ := c
    simp only [Memory.wfFrom, Bool.and_eq_true, decide_eq_true_eq] at h
    simp only [Memory.lookup]
    rw [if_neg (by omega)]
    exact ih h.2 (by omega)

theorem Memory.read_of_wfFrom {m : Memory} {lo a : Nat} (h : m.wfFrom lo = true) (ha : a < lo) :
    m.read a = Memory.initial a := by
  simp [Memory.read, Memory.lookup_of_wfFrom h ha]

/-- The first cell of a canonical memory is seen by a read. -/
theorem Memory.read_head {b : Nat} {v : Byte} {t : Memory} :
    Memory.read ((b, v) :: t) b = v := by simp [Memory.read, Memory.lookup]

theorem Memory.read_tail {a b : Nat} {v : Byte} {t : Memory} (h : a ≠ b) :
    Memory.read ((b, v) :: t) a = t.read a := by simp [Memory.read, Memory.lookup, h]

/-- Two canonical memories that read the same everywhere are the same list. -/
theorem Memory.eq_of_read_eq {m m' : Memory} {lo : Nat} (h : m.wfFrom lo = true)
    (h' : m'.wfFrom lo = true) (hr : ∀ a, m.read a = m'.read a) : m = m' := by
  induction m generalizing m' lo with
  | nil =>
    cases m' with
    | nil => rfl
    | cons c t =>
      obtain ⟨b, v⟩ := c
      simp only [Memory.wfFrom, Bool.and_eq_true, decide_eq_true_eq] at h'
      exact absurd ((hr b).trans Memory.read_head).symm (fun e => h'.1.2 (by rw [e]; rfl))
  | cons c t ih =>
    obtain ⟨b, v⟩ := c
    simp only [Memory.wfFrom, Bool.and_eq_true, decide_eq_true_eq] at h
    cases m' with
    | nil => exact absurd (Memory.read_head.symm.trans (hr b)) (fun e => h.1.2 (by rw [e]; rfl))
    | cons c' t' =>
      obtain ⟨b', v'⟩ := c'
      simp only [Memory.wfFrom, Bool.and_eq_true, decide_eq_true_eq] at h'
      rcases Nat.lt_trichotomy b b' with hl | he | hg
      · have e := hr b
        rw [Memory.read_head, Memory.read_tail (by omega),
          Memory.read_of_wfFrom h'.2 (by omega)] at e
        exact absurd e h.1.2
      · subst he
        have e := hr b
        rw [Memory.read_head, Memory.read_head] at e
        subst e
        refine congrArg _ (ih h.2 h'.2 fun a => ?_)
        by_cases ha : a = b
        · subst ha
          rw [Memory.read_of_wfFrom h.2 (by omega), Memory.read_of_wfFrom h'.2 (by omega)]
        · have := hr a
          rwa [Memory.read_tail ha, Memory.read_tail ha] at this
      · have e := hr b'
        rw [Memory.read_head, Memory.read_tail (by omega),
          Memory.read_of_wfFrom h.2 (by omega)] at e
        exact absurd e.symm h'.1.2

end Sys2Proof.Machine
end

