-- ==== Sys2Proof/Laws/Pixels.lean ====
section
/-! SUPPORT. What the pixel pipeline can do, said once: the pixel a `Plot` changes, the bytes it leaves
alone, and that nothing but the memory changes. -/

namespace Sys2Proof.Machine

open Sys2Proof

/-! ### The on-screen part of a range -/

/-- The offsets of `clip` are those whose coordinate is on the screen (41_blit.md R145). -/
theorem mem_clip {o : Int} {len k : Nat} :
    k ∈ clip o len ↔ k < len ∧ 0 ≤ o + k ∧ o + k ≤ 159 := by
  simp only [clip, List.mem_range'_1]
  omega

theorem onScreen_iff {px py : Int} :
    onScreen px py = true ↔ 0 ≤ px ∧ px ≤ 159 ∧ 0 ≤ py ∧ py ≤ 159 := by
  simp [onScreen, and_assoc]

/-! ### Where a pixel lies -/

theorem pixelAddr_eq {px py : Int} : pixelAddr px py = 0xA0 + (py * 160 + px).toNat / 4 := by
  simp [pixelAddr, Nat.shiftRight_eq_div_pow]

/-- An on-screen pixel lies in the framebuffer (40_pixel_pipeline.md R122). -/
theorem pixelAddr_bounds {px py : Int} (h : onScreen px py = true) :
    0xA0 ≤ pixelAddr px py ∧ pixelAddr px py ≤ 0x199F := by
  rw [onScreen_iff] at h
  rw [pixelAddr_eq]
  omega

/-- Two on-screen pixels in one byte and one lane are one pixel. -/
theorem pixel_unique {px py qx qy : Int} (hp : onScreen px py = true) (hq : onScreen qx qy = true)
    (ha : pixelAddr qx qy = pixelAddr px py) (hl : qx.toNat % 4 = px.toNat % 4) :
    qx = px ∧ qy = py := by
  rw [onScreen_iff] at hp hq
  rw [pixelAddr_eq, pixelAddr_eq] at ha
  omega

/-! ### One lane -/

theorem lane_withLane_nat (b : Byte) (slot : BitVec 2) (j k : Fin 4) :
    (withLane b (2 * k.val) slot >>> (2 * j.val)).setWidth 2 =
      if j = k then slot else (b >>> (2 * j.val)).setWidth 2 := by
  have hj : j = 0 ∨ j = 1 ∨ j = 2 ∨ j = 3 := by fin_cases j <;> simp
  have hk : k = 0 ∨ k = 1 ∨ k = 2 ∨ k = 3 := by fin_cases k <;> simp
  rcases hj with rfl | rfl | rfl | rfl <;> rcases hk with rfl | rfl | rfl | rfl <;>
    (apply BitVec.eq_of_getLsbD_eq; intro i hi
     have hi' : i = 0 ∨ i = 1 := by omega
     rcases hi' with rfl | rfl <;> simp [withLane])

/-! ### PutPixel -/

/-- `PutPixel` changes the memory only. -/
theorem State.putPixel_eq (s : State) (px py : Int) (slot : BitVec 2) :
    s.putPixel px py slot = s.setMem (s.putPixel px py slot).mem := by
  unfold State.putPixel
  split <;> rfl

/-- Bytes outside the framebuffer keep their value under `PutPixel` (40_pixel_pipeline.md R122). -/
theorem State.putPixel_read (s : State) (px py : Int) (slot : BitVec 2) {a : Nat}
    (h : a < 0xA0 ∨ 0x199F < a) : (s.putPixel px py slot).mem.read a = s.mem.read a := by
  unfold State.putPixel
  split
  · rename_i hp
    have := pixelAddr_bounds hp
    exact Memory.read_write_other _ (by omega) _
  · rfl

/-- The pixel `PutPixel` writes; every other pixel keeps its value (40_pixel_pipeline.md R122). -/
theorem State.putPixel_fb (s : State) (px py : Int) (slot : BitVec 2) {qx qy : Int}
    (hq : onScreen qx qy = true) :
    (s.putPixel px py slot).fb qx qy = if qx = px ∧ qy = py then slot else s.fb qx qy := by
  unfold State.putPixel
  split
  · rename_i hp
    have hb := pixelAddr_bounds hp
    simp only [State.fb, Memory.pixel, State.writeByte, State.readByte, State.setMem_mem]
    by_cases ha : pixelAddr qx qy = pixelAddr px py
    · rw [ha, Memory.read_write_same _ (by omega)]
      have hl := lane_withLane_nat (s.mem.read (pixelAddr px py)) slot
        ⟨qx.toNat % 4, by omega⟩ ⟨px.toNat % 4, by omega⟩
      simp only [pixelShift]
      rw [hl]
      simp only [Fin.mk.injEq]
      by_cases hc : qx.toNat % 4 = px.toNat % 4
      · rw [if_pos hc, if_pos (pixel_unique hp hq ha hc)]
      · rw [if_neg hc, if_neg fun e => hc (by rw [e.1])]
    · rw [Memory.read_write_other _ ha, if_neg fun e => ha (by rw [e.1, e.2])]
  · rename_i hp
    rw [if_neg]
    rintro ⟨rfl, rfl⟩
    exact hp hq

theorem State.putPixel_wf {s : State} (h : s.mem.wf = true) (px py : Int) (slot : BitVec 2) :
    (s.putPixel px py slot).mem.wf = true := by
  unfold State.putPixel
  split
  · exact Memory.wf_write h _ _
  · exact h

/-! ### Plot and lists of plots -/

/-- The memory of `t` agrees with that of `s` outside the framebuffer. -/
def agreesOffScreen (s t : State) : Prop :=
  ∀ a, a < 0xA0 ∨ 0x199F < a → t.mem.read a = s.mem.read a

theorem agreesOffScreen.drawColors {s t : State} (h : agreesOffScreen s t) :
    t.drawColors = s.drawColors := by
  unfold State.drawColors Memory.readReg
  rw [Memory.readLE_congr fun b _ hb' => h b (Or.inl (by
    simp only [rowOf, bytesOf] at hb'; omega))]

theorem agreesOffScreen.remap {s t : State} (h : agreesOffScreen s t) (k : Role) :
    t.remap k = s.remap k := by
  simp only [State.remap, h.drawColors]

theorem agreesOffScreen.trans {s t u : State} (h : agreesOffScreen s t)
    (h' : agreesOffScreen t u) : agreesOffScreen s u :=
  fun a ha => (h' a ha).trans (h a ha)

theorem State.plot_agrees (s : State) (px py : Int) (k : Role) :
    agreesOffScreen s (s.plot px py k) := by
  intro a ha
  unfold State.plot
  split
  · rfl
  · exact s.putPixel_read px py _ ha

/-- `Plot` changes the memory only. -/
theorem State.plot_eq (s : State) (px py : Int) (k : Role) :
    s.plot px py k = s.setMem (s.plot px py k).mem := by
  unfold State.plot
  split
  · rfl
  · exact s.putPixel_eq px py _

/-- The pixel `Plot` writes, if its role is not transparent; every other pixel keeps its value
(40_pixel_pipeline.md R124, R133). -/
theorem State.plot_fb (s : State) (px py : Int) (k : Role) {qx qy : Int}
    (hq : onScreen qx qy = true) :
    (s.plot px py k).fb qx qy =
      if qx = px ∧ qy = py then (s.remap k).getD (s.fb qx qy) else s.fb qx qy := by
  unfold State.plot
  split
  · rename_i h; simp [h]
  · rename_i slot h; rw [s.putPixel_fb px py slot hq, h]; rfl

theorem State.plot_wf {s : State} (h : s.mem.wf = true) (px py : Int) (k : Role) :
    (s.plot px py k).mem.wf = true := by
  unfold State.plot
  split
  · exact h
  · exact State.putPixel_wf h px py _

theorem State.plotAll_agrees (s : State) (ps : List (Int × Int × Role)) :
    agreesOffScreen s (s.plotAll ps) := by
  induction ps generalizing s with
  | nil => exact fun _ _ => rfl
  | cons p t ih => exact (s.plot_agrees p.1 p.2.1 p.2.2).trans (ih _)

/-- A list of plots changes the memory only. -/
theorem State.plotAll_eq (s : State) (ps : List (Int × Int × Role)) :
    s.plotAll ps = s.setMem (s.plotAll ps).mem := by
  induction ps generalizing s with
  | nil => rfl
  | cons p t ih =>
    change (s.plot p.1 p.2.1 p.2.2).plotAll t = s.setMem ((s.plot p.1 p.2.1 p.2.2).plotAll t).mem
    rw [ih, s.plot_eq p.1 p.2.1 p.2.2]
    rfl

theorem State.plotAll_wf {s : State} (h : s.mem.wf = true) (ps : List (Int × Int × Role)) :
    (s.plotAll ps).mem.wf = true := by
  induction ps generalizing s with
  | nil => exact h
  | cons p t ih => exact ih (State.plot_wf h _ _ _)

/-- A pixel no plot of the list names keeps its value. -/
theorem State.plotAll_fb_of_not_mem {s : State} {ps : List (Int × Int × Role)} {qx qy : Int}
    (hq : onScreen qx qy = true) (h : ∀ p ∈ ps, ¬ (p.1 = qx ∧ p.2.1 = qy)) :
    (s.plotAll ps).fb qx qy = s.fb qx qy := by
  induction ps generalizing s with
  | nil => rfl
  | cons p t ih =>
    change ((s.plot p.1 p.2.1 p.2.2).plotAll t).fb qx qy = s.fb qx qy
    rw [ih fun p' hp' => h p' (List.mem_cons_of_mem _ hp'), s.plot_fb _ _ _ hq, if_neg]
    exact fun e => h p List.mem_cons_self ⟨e.1.symm, e.2.symm⟩

/-- A pixel the list plots, always with the role `k`, takes that role's slot, or keeps its value where
the role is transparent. -/
theorem State.plotAll_fb_of_mem {s : State} {ps : List (Int × Int × Role)} {qx qy : Int} {k : Role}
    (hq : onScreen qx qy = true) (hm : ∃ p ∈ ps, p.1 = qx ∧ p.2.1 = qy)
    (hk : ∀ p ∈ ps, p.1 = qx → p.2.1 = qy → p.2.2 = k) :
    (s.plotAll ps).fb qx qy = (s.remap k).getD (s.fb qx qy) := by
  induction ps generalizing s with
  | nil => obtain ⟨_, hp, _⟩ := hm; cases hp
  | cons p t ih =>
    change ((s.plot p.1 p.2.1 p.2.2).plotAll t).fb qx qy = (s.remap k).getD (s.fb qx qy)
    have hr := (s.plot_agrees p.1 p.2.1 p.2.2).remap k
    have hfb := s.plot_fb p.1 p.2.1 p.2.2 hq
    by_cases ht : ∃ p' ∈ t, p'.1 = qx ∧ p'.2.1 = qy
    · rw [ih ht fun p' hp' => hk p' (List.mem_cons_of_mem _ hp'), hr, hfb]
      split
      · rename_i e
        rw [hk p List.mem_cons_self e.1.symm e.2.symm]
        cases s.remap k <;> rfl
      · rfl
    · have hn : ∀ p' ∈ t, ¬ (p'.1 = qx ∧ p'.2.1 = qy) := fun p' hp' e => ht ⟨p', hp', e⟩
      rw [State.plotAll_fb_of_not_mem hq hn, hfb]
      obtain ⟨p', hp', e⟩ := hm
      rcases List.mem_cons.1 hp' with rfl | hp'
      · rw [if_pos ⟨e.1.symm, e.2.symm⟩, hk p' List.mem_cons_self e.1 e.2]
      · exact absurd e (hn p' hp')

end Sys2Proof.Machine
end

