-- ==== Sys2Proof/Laws/Commands.lean ====
section
/-! SUPPORT. What a command can do, said once: accepting, raising, drawing, and one inversion lemma for
`exec`. -/

namespace Sys2Proof.Machine

open Sys2Proof

/-! ### Accepting, finishing, raising -/

theorem State.accept_next {s t : State} {run : State → State} :
    s.accept run = .next t ↔ s.fault.set = false ∧ t = run s := by
  unfold State.accept
  cases h : s.fault.set <;> simp [eq_comm]

theorem State.accept_of_clear {s : State} (h : s.fault.set = false) (run : State → State) :
    s.accept run = .next (run s) := State.accept_next.2 ⟨h, rfl⟩

theorem State.accept_of_set {s : State} (h : s.fault.set = true) (run : State → State) :
    s.accept run = .fault .commandNotAccepted := by simp [State.accept, h]

/-- Taking a fault in an unfaulted state (60_exceptions.md R221). -/
theorem State.raise_of_clear {s : State} (h : s.fault.set = false) (f : FaultName) (info : Word) :
    s.raise f info =
      { s with
        fault := { set := true, code := faultNumber f, info := info }
        callback := none
        cpAnswer := .fault } := by
  simp [State.raise, h, State.setFault, State.setCallback, State.answerCart]

@[simp] theorem State.raise_mem (s : State) (f : FaultName) (i : Word) :
    (s.raise f i).mem = s.mem := by unfold State.raise; split <;> rfl
@[simp] theorem State.raise_disk (s : State) (f : FaultName) (i : Word) :
    (s.raise f i).disk = s.disk := by unfold State.raise; split <;> rfl
@[simp] theorem State.raise_events (s : State) (f : FaultName) (i : Word) :
    (s.raise f i).events = s.events := by unfold State.raise; split <;> rfl
@[simp] theorem State.raise_cfg (s : State) (f : FaultName) (i : Word) :
    (s.raise f i).cfg = s.cfg := by unfold State.raise; split <;> rfl
@[simp] theorem State.raise_callback (s : State) (f : FaultName) (i : Word) :
    (s.raise f i).callback = none := rfl
@[simp] theorem State.raise_cpAnswer (s : State) (f : FaultName) (i : Word) :
    (s.raise f i).cpAnswer = .fault := rfl
@[simp] theorem State.raise_set (s : State) (f : FaultName) (i : Word) :
    (s.raise f i).fault.set = true := by
  unfold State.raise
  split
  · assumption
  · rfl

/-! ### The range checks -/

theorem stringFault_none {ptr n : Nat} : stringFault ptr n = none ↔ n = 0 ∨ ptr + n ≤ 0x10000 := by
  unfold stringFault
  split <;> simp <;> omega

theorem stringFault_some {ptr n a : Nat} (h : stringFault ptr n = some a) :
    1 ≤ n ∧ 0x10000 < ptr + n ∧ a = max ptr 0x10000 := by
  unfold stringFault at h
  split at h
  · cases h; omega
  · cases h

theorem leastAbove_none {l : List Nat} : leastAbove l = none ↔ ∀ a ∈ l, a ≤ 0xFFFF := by
  induction l with
  | nil => simp [leastAbove]
  | cons a t ih =>
    unfold leastAbove
    cases h : leastAbove t with
    | none =>
      have := ih.1 h
      by_cases ha : a > 0xFFFF
      · simp [ha]
      · simp only [if_neg ha, true_iff, List.mem_cons, forall_eq_or_imp]
        exact ⟨by omega, this⟩
    | some b =>
      have hn : ¬ ∀ a ∈ t, a ≤ 0xFFFF := fun e => by rw [ih.2 e] at h; cases h
      constructor
      · intro e; dsimp only at e; split at e <;> cases e
      · exact fun e => absurd (fun a ha => e a (List.mem_cons_of_mem _ ha)) hn

/-- The reported address is a listed one above 0xFFFF, and no listed one above 0xFFFF is less. -/
theorem leastAbove_some {l : List Nat} {m : Nat} (h : leastAbove l = some m) :
    m ∈ l ∧ 0xFFFF < m ∧ ∀ a ∈ l, 0xFFFF < a → m ≤ a := by
  induction l generalizing m with
  | nil => cases h
  | cons a t ih =>
    unfold leastAbove at h
    cases ht : leastAbove t with
    | none =>
      rw [ht] at h
      dsimp only at h
      have hn := leastAbove_none.1 ht
      split at h
      · cases h
        refine ⟨List.mem_cons_self, ‹_›, fun b hb hb' => ?_⟩
        rcases List.mem_cons.1 hb with rfl | hb
        · exact le_refl _
        · have := hn b hb; omega
      · cases h
    | some b =>
      rw [ht] at h
      dsimp only at h
      obtain ⟨h1, h2, h3⟩ := ih ht
      split at h
      · rename_i ha
        cases h
        refine ⟨?_, by omega, fun c hc hc' => ?_⟩
        · rcases Nat.le_total a b with hl | hl
          · rw [Nat.min_eq_left hl]; exact List.mem_cons_self
          · rw [Nat.min_eq_right hl]; exact List.mem_cons_of_mem _ h1
        · rcases List.mem_cons.1 hc with rfl | hc
          · exact Nat.min_le_left _ _
          · exact (Nat.min_le_right _ _).trans (h3 c hc hc')
      · cases h
        refine ⟨List.mem_cons_of_mem _ h1, h2, fun c hc hc' => ?_⟩
        rcases List.mem_cons.1 hc with rfl | hc
        · omega
        · exact h3 c hc hc'

/-- A sprite pixel is sampled when it lies in the sprite and its target on the screen
(41_blit.md R145). -/
theorem Blit.mem_sampled {b : Blit} {i j : Nat} :
    (i, j) ∈ b.sampled ↔
      i < b.w ∧ j < b.h ∧ onScreen (b.target i j).1 (b.target i j).2 = true := by
  simp only [Blit.sampled, Blit.target]
  split <;>
    simp only [List.mem_flatMap, List.mem_map, Prod.mk.injEq, mem_clip, onScreen_iff]
  · constructor
    · rintro ⟨j', hj, i', hi, rfl, rfl⟩; exact ⟨by omega, by omega, by omega⟩
    · rintro ⟨hi, hj, ho⟩; exact ⟨j, by omega, i, by omega, rfl, rfl⟩
  · constructor
    · rintro ⟨j', hj, i', hi, rfl, rfl⟩; exact ⟨by omega, by omega, by omega⟩
    · rintro ⟨hi, hj, ho⟩; exact ⟨j, by omega, i, by omega, rfl, rfl⟩

/-! ### Drawing -/

/-- `t` is `s` with framebuffer bytes drawn: nothing but the memory changes, no byte outside the
framebuffer, and the canonical form is kept (40_pixel_pipeline.md R130). -/
structure Draws (s t : State) : Prop where
  eq : t = s.setMem t.mem
  agrees : agreesOffScreen s t
  wf : s.mem.wf = true → t.mem.wf = true

theorem Draws.refl (s : State) : Draws s s := ⟨rfl, fun _ _ => rfl, id⟩

theorem Draws.trans {s t u : State} (h : Draws s t) (h' : Draws t u) : Draws s u where
  eq := by rw [h'.eq, h.eq]; rfl
  agrees := h.agrees.trans h'.agrees
  wf := fun hw => h'.wf (h.wf hw)

theorem Draws.plot (s : State) (px py : Int) (k : Role) : Draws s (s.plot px py k) :=
  ⟨s.plot_eq px py k, s.plot_agrees px py k, fun h => State.plot_wf h px py k⟩

theorem Draws.plotAll (s : State) (ps : List (Int × Int × Role)) : Draws s (s.plotAll ps) :=
  ⟨s.plotAll_eq ps, s.plotAll_agrees ps, fun h => State.plotAll_wf h ps⟩

theorem Draws.blit (b : Blit) (l : List (Nat × Nat)) (s : State) :
    Draws s (l.foldl b.drawPixel s) := by
  induction l generalizing s with
  | nil => exact Draws.refl s
  | cons p t ih => exact (Draws.plot s _ _ _).trans (ih _)

theorem Draws.cfg {s t : State} (h : Draws s t) : t.cfg = s.cfg := by rw [h.eq]; rfl

theorem Draws.textLoop (x : Int) (n ptr : Nat) (cx cy : Int) (s : State) :
    Draws s (textLoop x n ptr cx cy s) := by
  induction n generalizing ptr cx cy s with
  | zero => exact Draws.refl s
  | succ n ih =>
    unfold Machine.textLoop
    dsimp only
    split
    · exact ih ..
    · split
      · exact (Draws.plotAll s _).trans (ih ..)
      · exact ih ..

/-! ### What each command answers while FAULT.set = 0 -/

theorem exec_blit_of_clear {s : State} (hf : s.fault.set = false) (ptr w h : Nat) (x y : Int) (flags : Word) :
    exec (.blit ptr x y w h flags) s =
      .next ((blitOf s.cfg ptr x y w h flags).run s) :=
  by simp only [exec, execBlit, State.accept_of_clear hf]

theorem exec_blitSub_of_clear {s : State} (hf : s.fault.set = false) (ptr w h srcX srcY stride : Nat) (x y : Int) (flags : Word) :
    exec (.blitSub ptr x y w h srcX srcY stride flags) s =
      .next ((blitSubOf s.cfg ptr x y w h srcX srcY stride flags).run s) :=
  by simp only [exec, execBlitSub, State.accept_of_clear hf]

theorem exec_line_of_clear {s : State} (hf : s.fault.set = false) (x1 y1 x2 y2 : Int) :
    exec (.line x1 y1 x2 y2) s =
      .next ((s.plotAll ((linePoints x1 y1 x2 y2).map fun p => (p.1, p.2, Role.role1))).finish) :=
  by simp only [exec, execLine, State.accept_of_clear hf]

theorem exec_hline_of_clear {s : State} (hf : s.fault.set = false) (x y : Int) (len : Nat) :
    exec (.hline x y len) s =
      .next ((s.plotAll ((clip x len).map fun (k : Nat) => (x + (k : Int), y, Role.role1))).finish) :=
  by simp only [exec, execHline, State.accept_of_clear hf]

theorem exec_vline_of_clear {s : State} (hf : s.fault.set = false) (x y : Int) (len : Nat) :
    exec (.vline x y len) s =
      .next ((s.plotAll ((clip y len).map fun (k : Nat) => (x, y + (k : Int), Role.role1))).finish) :=
  by simp only [exec, execVline, State.accept_of_clear hf]

theorem exec_oval_of_clear {s : State} (hf : s.fault.set = false) (x y : Int) (w h : Nat) :
    exec (.oval x y w h) s =
      .next ((s.plotAll (ovalPlots x y w h)).finish) :=
  by simp only [exec, execOval, State.accept_of_clear hf]

theorem exec_rect_of_clear {s : State} (hf : s.fault.set = false) (x y : Int) (w h : Nat) :
    exec (.rect x y w h) s =
      .next ((s.plotAll (rectPlots x y w h)).finish) :=
  by simp only [exec, execRect, State.accept_of_clear hf]

theorem exec_text_of_clear {s : State} (hf : s.fault.set = false) {ptr len : Nat}
    (hr : len = 0 ∨ ptr + len ≤ 0x10000) (x y : Int) :
    exec (.text ptr len x y) s = .next (textLoop x len ptr x y s).finish := by
  simp only [exec, execText, State.accept_of_clear hf, stringFault_none.2 hr]

theorem exec_tone_of_clear {s : State} (hf : s.fault.set = false)
    (frequency duration volume flags : Word) :
    exec (.tone frequency duration volume flags) s =
      .next (s.emit (.tone frequency duration volume flags)).finish :=
  by simp only [exec, execTone, State.accept_of_clear hf]

theorem exec_trace_of_clear {s : State} (hf : s.fault.set = false) {ptr len : Nat}
    (hr : len = 0 ∨ ptr + len ≤ 0x10000) :
    exec (.trace ptr len) s = .next (s.emit (.trace (s.srcBytes ptr len))).finish := by
  simp only [exec, execTrace, State.accept_of_clear hf, stringFault_none.2 hr]

theorem exec_diskr_of_clear {s : State} (hf : s.fault.set = false) {ptr count : Nat}
    (hr : dstOutside ptr (diskReadCount s count) = false) :
    exec (.diskr ptr count) s =
      .next ((s.setMem (s.mem.writeBytes ptr (s.disk.take (diskReadCount s count)))).finishWith
        (diskReadCount s count)) := by
  simp only [exec, execDiskr, State.accept_of_clear hf, hr, Bool.false_eq_true, if_false]

theorem exec_diskw_of_clear {s : State} (hf : s.fault.set = false) {ptr count : Nat}
    (hr : diskWriteCount s count = 0 ∨ ptr + diskWriteCount s count ≤ 0x10000) :
    exec (.diskw ptr count) s =
      .next ((s.setDisk (s.srcBytes ptr (diskWriteCount s count))).finishWith
        (diskWriteCount s count)) := by
  simp only [exec, execDiskw, State.accept_of_clear hf, stringFault_none.2 hr]

/-- A blit whose sampled source bytes all lie in memory draws its sampled pixels in order. -/
theorem Blit.run_of_inside {b : Blit} (h : b.sourceFault = none) (s : State) :
    b.run s = (b.sampled.foldl b.drawPixel s).finish := by
  simp only [Blit.run, h]

theorem Blit.run_of_above {b : Blit} {a : Nat} (h : b.sourceFault = some a) (s : State) :
    b.run s = s.raise .srcRange (infoOf a) := by
  simp only [Blit.run, h]

/-! ### One inversion lemma for all commands -/

/-- Everything a command that answers a next state can have done: it drew, it emitted an event, it
stored disk bytes at or above 0x00A0, it replaced the disk blob, or it took a fault. -/
theorem exec_next {i : Instr} {s t : State} (h : exec i s = .next t) :
    s.fault.set = false ∧
      ((∃ u, Draws s u ∧ t = u.finish) ∨
        (∃ e, t = (s.emit e).finish) ∨
        (∃ ptr r, r ≤ s.disk.length ∧ (r = 0 ∨ 0xA0 ≤ ptr ∧ ptr + r ≤ 0x10000) ∧
          t = (s.setMem (s.mem.writeBytes ptr (s.disk.take r))).finishWith r) ∨
        (∃ d r, d.length ≤ s.cfg.diskCap ∧ t = (s.setDisk d).finishWith r) ∨
        (∃ f info, (f = .srcRange ∨ f = .dstRange) ∧ t = s.raise f info)) := by
  have blit : ∀ b : Blit, s.accept b.run = .next t →
      s.fault.set = false ∧ ((∃ u, Draws s u ∧ t = u.finish) ∨
        (∃ f info, (f = .srcRange ∨ f = .dstRange) ∧ t = s.raise f info)) := by
    intro b hb
    obtain ⟨hf, rfl⟩ := State.accept_next.1 hb
    refine ⟨hf, ?_⟩
    unfold Blit.run
    split
    · exact .inr ⟨_, _, .inl rfl, rfl⟩
    · exact .inl ⟨_, Draws.blit b _ s, rfl⟩
  have plots : ∀ ps, s.accept (fun u => (u.plotAll ps).finish) = .next t →
      s.fault.set = false ∧ ∃ u, Draws s u ∧ t = u.finish := by
    intro ps hp
    obtain ⟨hf, rfl⟩ := State.accept_next.1 hp
    exact ⟨hf, _, Draws.plotAll s ps, rfl⟩
  cases i with
  | blit ptr x y w ht flags =>
    obtain ⟨hf, hd | hr⟩ := blit _ h
    · exact ⟨hf, .inl hd⟩
    · exact ⟨hf, .inr (.inr (.inr (.inr hr)))⟩
  | blitSub ptr x y w ht srcX srcY stride flags =>
    obtain ⟨hf, hd | hr⟩ := blit _ h
    · exact ⟨hf, .inl hd⟩
    · exact ⟨hf, .inr (.inr (.inr (.inr hr)))⟩
  | line x1 y1 x2 y2 => exact (plots _ h).imp_right .inl
  | hline x y len => exact (plots _ h).imp_right .inl
  | vline x y len => exact (plots _ h).imp_right .inl
  | oval x y w ht => exact (plots _ h).imp_right .inl
  | rect x y w ht => exact (plots _ h).imp_right .inl
  | text ptr len x y =>
    simp only [exec, execText] at h
    obtain ⟨hf, rfl⟩ := State.accept_next.1 h
    refine ⟨hf, ?_⟩
    split
    · exact .inr (.inr (.inr (.inr ⟨_, _, .inl rfl, rfl⟩)))
    · exact .inl ⟨_, Draws.textLoop .., rfl⟩
  | tone frequency duration volume flags =>
    simp only [exec, execTone] at h
    obtain ⟨hf, rfl⟩ := State.accept_next.1 h
    exact ⟨hf, .inr (.inl ⟨_, rfl⟩)⟩
  | diskr ptr count =>
    simp only [exec, execDiskr] at h
    obtain ⟨hf, rfl⟩ := State.accept_next.1 h
    refine ⟨hf, ?_⟩
    split
    · exact .inr (.inr (.inr (.inr ⟨_, _, .inr rfl, rfl⟩)))
    · rename_i hd
      refine .inr (.inr (.inl ⟨ptr, diskReadCount s count, Nat.min_le_right _ _, ?_, rfl⟩))
      simp only [dstOutside, Bool.and_eq_true, Bool.or_eq_true, decide_eq_true_eq] at hd
      generalize diskReadCount s count = r at hd ⊢
      omega
  | diskw ptr count =>
    simp only [exec, execDiskw] at h
    obtain ⟨hf, rfl⟩ := State.accept_next.1 h
    refine ⟨hf, ?_⟩
    split
    · exact .inr (.inr (.inr (.inr ⟨_, _, .inl rfl, rfl⟩)))
    · refine .inr (.inr (.inr (.inl ⟨_, _, ?_, rfl⟩)))
      simp only [State.srcBytes, Memory.readBytes_length]
      exact Nat.min_le_right _ _
  | trace ptr len =>
    simp only [exec, execTrace] at h
    obtain ⟨hf, rfl⟩ := State.accept_next.1 h
    refine ⟨hf, ?_⟩
    split
    · exact .inr (.inr (.inr (.inr ⟨_, _, .inl rfl, rfl⟩)))
    · exact .inr (.inl ⟨_, rfl⟩)

end Sys2Proof.Machine
end

