-- ==== Sys2Proof/Laws/Port.lean ====
section
/-! SUPPORT. What the two ports and the step can do, said once. -/

namespace Sys2Proof.Machine

open Sys2Proof

/-! ### The cartridge port -/

/-- A performed access at or below 0x009F hits a row of the register table (20_memory.md R67); one that
writes, a row the cartridge may write. -/
theorem portVerdict_performed {f : Bool} {a : Nat} {n : Width} {k : Access}
    (h : portVerdict f a n k = .performed) :
    f = false ∧ a + bytesOf n ≤ 0x10000 ∧
      (0xA0 ≤ a ∨ ∃ r, findRow a n = some r ∧ (k = .write → r.rights = .readWrite)) := by
  have hn : 1 ≤ bytesOf n := by cases n <;> decide
  unfold portVerdict at h
  cases f with
  | true => cases h
  | false =>
    simp only [Bool.false_eq_true, if_false] at h
    split at h
    · cases h
    · refine ⟨rfl, by omega, ?_⟩
      split at h
      · right
        split at h
        · cases h
        · rename_i r hr
          split at h
          · cases h
          · rename_i hk
            refine ⟨r, hr, fun hw => ?_⟩
            cases hrr : r.rights with
            | readOnly => exact absurd ⟨hw, hrr⟩ hk
            | readWrite => rfl
      · left; omega

/-- Everything a cartridge access can do. -/
theorem cartWrite_next {a : BitVec 16} {n : Width} {v : Word} {s t : State}
    (h : cartWrite a n v s = .next t) :
    s.fault.set = false ∧
      ((∃ f, t = s.raise f (a.setWidth 32)) ∨ t = s.finish ∨
        (portVerdict s.fault.set a.toNat n .write = .performed ∧
          t = (s.setMem (s.mem.writeLE a.toNat (bytesOf n) v.toNat)).finish)) := by
  have hf : portVerdict s.fault.set a.toNat n .write ≠ .notAccepted → s.fault.set = false := by
    intro hv
    cases hs : s.fault.set with
    | false => rfl
    | true => exact absurd (by simp [portVerdict, hs]) hv
  unfold cartWrite at h
  cases hv : portVerdict s.fault.set a.toNat n .write with
  | notAccepted => simp [hv] at h
  | raises f =>
    simp only [hv, Host.Outcome.next.injEq] at h
    exact ⟨hf (by simp [hv]), .inl ⟨f, h.symm⟩⟩
  | dropped =>
    simp only [hv, Host.Outcome.next.injEq] at h
    exact ⟨hf (by simp [hv]), .inr (.inl h.symm)⟩
  | performed =>
    simp only [hv, Host.Outcome.next.injEq] at h
    exact ⟨hf (by simp [hv]), .inr (.inr ⟨rfl, h.symm⟩)⟩

theorem cartRead_next {a : BitVec 16} {n : Width} {s t : State}
    (h : cartRead a n s = .next t) :
    s.fault.set = false ∧
      ((∃ f, t = s.raise f (a.setWidth 32)) ∨ ∃ r, t = s.answerCart r) := by
  have hf : portVerdict s.fault.set a.toNat n .read ≠ .notAccepted → s.fault.set = false := by
    intro hv
    cases hs : s.fault.set with
    | false => rfl
    | true => exact absurd (by simp [portVerdict, hs]) hv
  unfold cartRead at h
  cases hv : portVerdict s.fault.set a.toNat n .read with
  | notAccepted => simp [hv] at h
  | raises f =>
    simp only [hv, Host.Outcome.next.injEq] at h
    exact ⟨hf (by simp [hv]), .inl ⟨f, h.symm⟩⟩
  | dropped =>
    simp only [hv, Host.Outcome.next.injEq] at h
    exact ⟨hf (by simp [hv]), .inr ⟨_, h.symm⟩⟩
  | performed =>
    simp only [hv, Host.Outcome.next.injEq] at h
    exact ⟨hf (by simp [hv]), .inr ⟨_, h.symm⟩⟩

/-- Latching a command changes CMD and OP only. -/
theorem State.latch_eq (s : State) (cmd : Word) (ops : Operands) :
    s.latch cmd ops = s.setLatches (s.latch cmd ops).cmd (s.latch cmd ops).op := by
  unfold State.latch
  split <;> rfl

@[simp] theorem State.latch_cmd (s : State) (cmd : Word) (ops : Operands) :
    (s.latch cmd ops).cmd = cmd := by
  unfold State.latch
  split <;> rfl

/-- The issue of a command runs the command it decodes to, or raises BadCommand. -/
theorem issueCommand_next {cmd : Word} {ops : Operands} {s t : State}
    (h : issueCommand cmd ops s = .next t) :
    s.fault.set = false ∧
      (t = (s.latch cmd ops).raise .badCommand cmd ∨
        ∃ i, decodeLatches cmd (s.latch cmd ops).op = some i ∧
          exec i (s.latch cmd ops) = .next t) := by
  unfold issueCommand at h
  cases hs : s.fault.set with
  | true => simp [hs] at h
  | false =>
    simp only [hs, Bool.false_eq_true, if_false, State.latch_cmd] at h
    refine ⟨rfl, ?_⟩
    cases hd : decodeLatches cmd (s.latch cmd ops).op with
    | none => simp only [hd, Host.Outcome.next.injEq] at h; exact .inl h.symm
    | some i => simp only [hd] at h; exact .inr ⟨i, rfl, h⟩

/-! ### The host port -/

theorem State.perform_next {s t : State} {run : State → State} :
    s.perform run = .next t ↔ s.fault.set = false ∧ t = run s := by
  unfold State.perform
  cases h : s.fault.set <;> simp [eq_comm]

/-- HInput writes no byte outside the gamepad and mouse rows (70_reset_and_hazards.md R255). -/
theorem inputMemory_read_outside {m : Memory} {g1 g2 g3 g4 mb : Byte} {mx my : BitVec 16} {a : Nat}
    (h : a < 0x16 ∨ 0x1E < a) : (inputMemory m g1 g2 g3 g4 mx my mb).read a = m.read a := by
  unfold inputMemory
  iterate 7 rw [Memory.read_writeReg, if_neg (by simp only [rowOf, bytesOf]; omega)]

theorem wf_inputMemory {m : Memory} (h : m.wf = true) (g1 g2 g3 g4 mb : Byte) (mx my : BitVec 16) :
    (inputMemory m g1 g2 g3 g4 mx my mb).wf = true := by
  unfold inputMemory
  iterate 7 apply Memory.wf_writeReg
  exact h

theorem wf_resetMemory (c : Config) (u : Unspecified) : (resetMemory c u).wf = true := by
  unfold resetMemory
  iterate 12 apply Memory.wf_writeReg
  exact Memory.wf_writeBytes rfl _ _

theorem wf_frameStartMemory {s : State} (h : s.mem.wf = true) : (frameStartMemory s).wf = true := by
  unfold frameStartMemory
  split
  · exact h
  · exact Memory.wf_writeBytes h _ _

/-! ### The step, by whose turn it is -/

theorem step_cart {s : State} {p q : CartPlan} {o : CartOp} (h : s.callback = some p)
    (ht : p.turn = .acts o q) : step s = cartStep o (s.setCallback (some q)) := by
  simp [step, h, ht]

theorem step_compute {s : State} {p : CartPlan} (h : s.callback = some p) (ht : p.turn = .computes) :
    step s = .next s := by
  simp [step, h, ht]

theorem step_return {s : State} {p : CartPlan} (h : s.callback = some p) (ht : p.turn = .returns) :
    step s = .next ((s.setCallback none).answerHost .done) := by
  simp [step, h, ht]

/-- A plan that never returns still never returns after an operation of it (60_exceptions.md R230). -/
theorem CartPlan.turn_again {p q : CartPlan} {o : CartOp} (h : p.turn = .acts o q) :
    q.again = p.again := by
  unfold CartPlan.turn at h
  split at h <;> cases h <;> rfl

theorem CartPlan.turn_returns {p : CartPlan} : p.turn = .returns ↔ p.next = [] ∧ p.again = none := by
  unfold CartPlan.turn
  split <;> simp_all

theorem step_host {s : State} {o : HostOp} {rest : List HostOp} (hc : s.callback = none)
    (h : s.host = o :: rest) : step s = hostStep o (s.setHost rest) := by
  simp [step, hc, h]

theorem step_idle {s : State} (hc : s.callback = none) (h : s.host = []) : step s = .next s := by
  simp [step, hc, h]

/-- Everything a step that answers a next state can have been. -/
theorem step_next {s t : State} (h : step s = .next t) :
    (∃ p o q, s.callback = some p ∧ p.turn = .acts o q ∧
        cartStep o (s.setCallback (some q)) = .next t) ∨
      (∃ p, s.callback = some p ∧ p.turn = .computes ∧ t = s) ∨
      (∃ p, s.callback = some p ∧ p.turn = .returns ∧ t = (s.setCallback none).answerHost .done) ∨
      (s.callback = none ∧ ∃ o rest, s.host = o :: rest ∧ hostStep o (s.setHost rest) = .next t) ∨
      (s.callback = none ∧ s.host = [] ∧ t = s) := by
  cases hc : s.callback with
  | some p =>
    cases ht : p.turn with
    | acts o q => exact .inl ⟨p, o, q, rfl, ht, by rw [← step_cart hc ht, h]⟩
    | computes =>
      rw [step_compute hc ht] at h
      exact .inr (.inl ⟨p, rfl, ht, by cases h; rfl⟩)
    | returns =>
      rw [step_return hc ht] at h
      exact .inr (.inr (.inl ⟨p, rfl, ht, by cases h; rfl⟩))
  | none =>
    cases hh : s.host with
    | nil =>
      rw [step_idle hc hh] at h
      exact .inr (.inr (.inr (.inr ⟨rfl, rfl, by cases h; rfl⟩)))
    | cons o rest =>
      rw [step_host hc hh] at h
      exact .inr (.inr (.inr (.inl ⟨rfl, o, rest, rfl, h⟩)))

end Sys2Proof.Machine
end

