-- ==== Sys2Proof/Laws/Claims.lean ====
section
/-! SUPPORT. The terms the statements are made in, as the model's own operations: `pixelAt` is `fb`,
`inked` is `remap`, `faulted` is `raise`. -/

namespace Sys2Proof.Claims

open Sys2Proof Sys2Proof.Machine

theorem toNat_shiftRight_lane (b : Byte) (k : Nat) :
    ((b >>> (2 * k)).setWidth 2).toNat = b.toNat / 4 ^ k % 4 := by
  rw [BitVec.toNat_setWidth, BitVec.toNat_ushiftRight, Nat.shiftRight_eq_div_pow,
    show (2 : Nat) ^ (2 * k) = 4 ^ k by rw [pow_mul]; rfl]

/-- FB(px, py) as the spec writes it (10_state.md R40) is the model's `fb`. -/
theorem pixelAt_eq (s : State) (px py : Nat) : pixelAt s px py = (s.fb px py).toNat := by
  have ha : pixelAddr (px : Int) (py : Int) = 0xA0 + (py * 160 + px) / 4 := by
    rw [pixelAddr_eq]; omega
  simp only [pixelAt, State.fb, Memory.pixel, pixelShift, ha, toNat_shiftRight_lane,
    Int.toNat_natCast, State.readByte]

theorem onScreen_natCast {px py : Nat} (hx : px < 160) (hy : py < 160) :
    onScreen (px : Int) (py : Int) = true := by
  rw [onScreen_iff]; omega

/-- The value a role's number has in `inked`. -/
def valueOf : Role → Nat
  | .role1 => 0
  | .role2 => 1
  | .role3 => 2
  | .role4 => 3

theorem drawColors_toNat (s : State) :
    s.drawColors.toNat = (s.readByte 0x14).toNat + 256 * (s.readByte 0x15).toNat := by
  have h1 := (s.mem.read 0x14).isLt
  have h2 := (s.mem.read 0x15).isLt
  simp only [State.drawColors, Memory.readReg, rowOf, bytesOf, Memory.readLE, State.readByte,
    BitVec.toNat_ofNat]
  rw [show (0x14 : Nat) + 1 = 0x15 from rfl]
  omega

theorem nibbleAt_eq (s : State) (k : Role) :
    nibbleAt s (valueOf k) = (nibbleOf s.drawColors k).toNat := by
  unfold nibbleAt
  rw [← drawColors_toNat]
  cases k <;> simp [valueOf, nibbleOf, BitVec.extractLsb'_toNat, Nat.shiftRight_eq_div_pow]

theorem remap_eq (s : State) (k : Role) :
    s.remap k = if nibbleAt s (valueOf k) = 0 then none
      else some (BitVec.ofNat 2 (nibbleAt s (valueOf k) - 1)) := by
  rw [nibbleAt_eq]
  unfold State.remap slotOf
  have : nibbleOf s.drawColors k = 0#4 ↔ (nibbleOf s.drawColors k).toNat = 0 :=
    ⟨fun h => by rw [h]; rfl, fun h => BitVec.eq_of_toNat_eq h⟩
  simp only [this]

/-- What `Plot` leaves in a pixel is `inked` (10_state.md R32). -/
theorem inked_eq (s : State) (k : Role) (old : BitVec 2) :
    ((s.remap k).getD old).toNat = inked s (valueOf k) old.toNat := by
  rw [remap_eq]
  unfold inked
  split
  · rfl
  · simp [BitVec.toNat_ofNat]

/-- A fault taken in an unfaulted state is `faulted`. -/
theorem raise_eq_faulted {s : State} (h : s.fault.set = false) (f : FaultName) (info : Word) :
    s.raise f info = faulted s (faultNumber f) info := State.raise_of_clear h f info

/-- A state that only drew, finished, is `onlyDrew`. -/
theorem Draws_onlyDrew {s t : State} (h : Draws s t) : onlyDrew s t.finish :=
  ⟨by rw [h.eq]; rfl, fun a ha => h.agrees a ha⟩

end Sys2Proof.Claims
end

