-- ==== Sys2Proof/Laws/PerInstr.lean ====
section
/-! SUPPORT. Families of one lemma per command. `EncodeShape`: the words of a command are its opcode and
as many operand words as the opcode table counts (30_encoding.md R92, R96). -/

namespace Sys2Proof.Laws.EncodeShape

open Sys2Proof

/-- The first word of `i` selects a command whose operand count is the number of the words after it. -/
def Statement (i : Instr) : Prop :=
  ∃ cmd ops, encodeWords i = cmd :: ops ∧ operandCount cmd = some ops.length

theorem blit (ptr : Nat) (x y : Int) (w h : Nat) (flags : Word) :
    Statement (.blit ptr x y w h flags) := ⟨_, _, rfl, rfl⟩

theorem blitSub (ptr : Nat) (x y : Int) (w h srcX srcY stride : Nat) (flags : Word) :
    Statement (.blitSub ptr x y w h srcX srcY stride flags) := ⟨_, _, rfl, rfl⟩

theorem line (x1 y1 x2 y2 : Int) : Statement (.line x1 y1 x2 y2) := ⟨_, _, rfl, rfl⟩

theorem hline (x y : Int) (len : Nat) : Statement (.hline x y len) := ⟨_, _, rfl, rfl⟩

theorem vline (x y : Int) (len : Nat) : Statement (.vline x y len) := ⟨_, _, rfl, rfl⟩

theorem oval (x y : Int) (w h : Nat) : Statement (.oval x y w h) := ⟨_, _, rfl, rfl⟩

theorem rect (x y : Int) (w h : Nat) : Statement (.rect x y w h) := ⟨_, _, rfl, rfl⟩

theorem text (ptr len : Nat) (x y : Int) : Statement (.text ptr len x y) := ⟨_, _, rfl, rfl⟩

theorem tone (frequency duration volume flags : Word) :
    Statement (.tone frequency duration volume flags) := ⟨_, _, rfl, rfl⟩

theorem diskr (ptr count : Nat) : Statement (.diskr ptr count) := ⟨_, _, rfl, rfl⟩

theorem diskw (ptr count : Nat) : Statement (.diskw ptr count) := ⟨_, _, rfl, rfl⟩

theorem trace (ptr len : Nat) : Statement (.trace ptr len) := ⟨_, _, rfl, rfl⟩

end Sys2Proof.Laws.EncodeShape
end

