-- ==== Sys2Proof/Tests/Slice0.lean ====
section
/-! SUPPORT. The model's own tests: ill-formed terms are refused, one written-out word of each command
decodes, single steps give what the vectors of 95_test_vectors.md say, and for every statement of
Certificates/Slice0/Obligations.lean with hypotheses a named witness (`witness_<statement>`) that meets
them together. -/

namespace Sys2Proof.Tests

open Sys2Proof Sys2Proof.Machine Sys2Proof.Claims

/-! ### Helpers -/

/-- Bytes stored at rising addresses. -/
def poke (s : State) (a : Nat) (bytes : List Byte) : State := s.setMem (s.mem.writeBytes a bytes)

/-- The state after reset with DRAW_COLORS set. -/
def coloured (dc : Nat) : State := State.reset.setMem (State.reset.mem.writeLE 0x14 2 dc)

/-- Whether an outcome is a next state of which `p` holds. -/
def onNext (o : Host.Outcome State Fault Refusal) (p : State → Bool) : Bool :=
  match o with
  | .next t => p t
  | .fault _ => false
  | .refused _ => false

/-- The bytes of a state from an address. -/
def bytesAt (s : State) (a n : Nat) : List Byte := s.mem.readBytes a n

/-- The state is the fault (code, info) taken in `s`, memory and blob untouched. -/
def isFault (s t : State) (code : BitVec 8) (info : Word) : Bool :=
  decide (t.fault = { set := true, code := code, info := info }) && decide (t.mem = s.mem) &&
    decide (t.disk = s.disk) && decide (t.events = s.events) && decide (t.callback = none)

/-- A faulted state. -/
def broken : State := State.reset.raise .badAccess 0x14#32

/-- A state in whose callback the cartridge will do `o` and return. -/
def calling (o : CartOp) (s : State) : State := s.setCallback (some { next := [o], again := none })

/-- A state whose host will do `o` next. -/
def hosting (o : HostOp) (s : State) : State := s.setHost [o]

/-- Values for the unspecified items of HReset. -/
def someItems : Unspecified where
  gamepad1 := 1
  gamepad2 := 2
  gamepad3 := 3
  gamepad4 := 4
  mouseX := 0x8001
  mouseY := 0x7FFE
  mouseButtons := 7
  cmd := 8
  op := zeroOperands
  code := 9
  info := 10
  image := [0xAA, 0xBB]

/-! ### Well-formedness: one ill-formed term for each check (30_encoding.md R94) -/

theorem test_wellFormed_admits_the_bounds :
    (Instr.line (-(2 ^ 31)) (2 ^ 31 - 1) 0 0).wellFormed = true ∧
      (Instr.diskr (2 ^ 32 - 1) 0).wellFormed = true ∧
      (Instr.tone 0xFFFFFFFF#32 0#32 0#32 0#32).wellFormed = true := by decide

theorem test_wellFormed_refuses_blit :
    (Instr.blit (2 ^ 32) 0 0 0 0 0#32).wellFormed = false ∧
      (Instr.blit 0 (2 ^ 31) 0 0 0 0#32).wellFormed = false ∧
      (Instr.blit 0 0 (-(2 ^ 31) - 1) 0 0 0#32).wellFormed = false ∧
      (Instr.blit 0 0 0 (2 ^ 32) 0 0#32).wellFormed = false ∧
      (Instr.blit 0 0 0 0 (2 ^ 32) 0#32).wellFormed = false := by decide

theorem test_wellFormed_refuses_blitSub :
    (Instr.blitSub (2 ^ 32) 0 0 0 0 0 0 0 0#32).wellFormed = false ∧
      (Instr.blitSub 0 (2 ^ 31) 0 0 0 0 0 0 0#32).wellFormed = false ∧
      (Instr.blitSub 0 0 (2 ^ 31) 0 0 0 0 0 0#32).wellFormed = false ∧
      (Instr.blitSub 0 0 0 (2 ^ 32) 0 0 0 0 0#32).wellFormed = false ∧
      (Instr.blitSub 0 0 0 0 (2 ^ 32) 0 0 0 0#32).wellFormed = false ∧
      (Instr.blitSub 0 0 0 0 0 (2 ^ 32) 0 0 0#32).wellFormed = false ∧
      (Instr.blitSub 0 0 0 0 0 0 (2 ^ 32) 0 0#32).wellFormed = false ∧
      (Instr.blitSub 0 0 0 0 0 0 0 (2 ^ 32) 0#32).wellFormed = false := by decide

theorem test_wellFormed_refuses_lines :
    (Instr.line (2 ^ 31) 0 0 0).wellFormed = false ∧
      (Instr.line 0 (2 ^ 31) 0 0).wellFormed = false ∧
      (Instr.line 0 0 (2 ^ 31) 0).wellFormed = false ∧
      (Instr.line 0 0 0 (2 ^ 31)).wellFormed = false ∧
      (Instr.hline (2 ^ 31) 0 0).wellFormed = false ∧
      (Instr.hline 0 (2 ^ 31) 0).wellFormed = false ∧
      (Instr.hline 0 0 (2 ^ 32)).wellFormed = false ∧
      (Instr.vline (2 ^ 31) 0 0).wellFormed = false ∧
      (Instr.vline 0 (2 ^ 31) 0).wellFormed = false ∧
      (Instr.vline 0 0 (2 ^ 32)).wellFormed = false := by decide

theorem test_wellFormed_refuses_shapes :
    (Instr.oval (2 ^ 31) 0 0 0).wellFormed = false ∧
      (Instr.oval 0 (2 ^ 31) 0 0).wellFormed = false ∧
      (Instr.oval 0 0 (2 ^ 32) 0).wellFormed = false ∧
      (Instr.oval 0 0 0 (2 ^ 32)).wellFormed = false ∧
      (Instr.rect (2 ^ 31) 0 0 0).wellFormed = false ∧
      (Instr.rect 0 (2 ^ 31) 0 0).wellFormed = false ∧
      (Instr.rect 0 0 (2 ^ 32) 0).wellFormed = false ∧
      (Instr.rect 0 0 0 (2 ^ 32)).wellFormed = false := by decide

theorem test_wellFormed_refuses_text_and_host_calls :
    (Instr.text (2 ^ 32) 0 0 0).wellFormed = false ∧
      (Instr.text 0 (2 ^ 32) 0 0).wellFormed = false ∧
      (Instr.text 0 0 (2 ^ 31) 0).wellFormed = false ∧
      (Instr.text 0 0 0 (2 ^ 31)).wellFormed = false ∧
      (Instr.diskr (2 ^ 32) 0).wellFormed = false ∧
      (Instr.diskr 0 (2 ^ 32)).wellFormed = false ∧
      (Instr.diskw (2 ^ 32) 0).wellFormed = false ∧
      (Instr.diskw 0 (2 ^ 32)).wellFormed = false ∧
      (Instr.trace (2 ^ 32) 0).wellFormed = false ∧
      (Instr.trace 0 (2 ^ 32)).wellFormed = false := by decide

/-! ### Decoding: words written out from 30_encoding.md R92 to R96, every operand different -/

theorem test_decode_blit :
    decodeBytes [1, 0, 0, 0, 0x04, 0x03, 0x02, 0x01, 0xFF, 0xFF, 0xFF, 0xFF, 0xFE, 0xFF, 0xFF, 0xFF,
      3, 0, 0, 0, 4, 0, 0, 0, 5, 0, 0, 0x80] =
      .ok (.blit 0x01020304 (-1) (-2) 3 4 0x80000005#32) [] := by decide

theorem test_decode_blitSub :
    decodeBytes [2, 0, 0, 0, 0x0A, 0, 0, 0, 0xFF, 0xFF, 0xFF, 0xFF, 2, 0, 0, 0, 3, 0, 0, 0, 4, 0, 0, 0,
      5, 0, 0, 0, 6, 0, 0, 0, 0xFF, 0xFF, 0xFF, 0xFF, 8, 0, 0, 0, 0x55] =
      .ok (.blitSub 10 (-1) 2 3 4 5 6 0xFFFFFFFF 8#32) [0x55#8] := by decide

theorem test_decode_line :
    decodeBytes [3, 0, 0, 0, 0, 0, 0, 0x80, 0xFF, 0xFF, 0xFF, 0x7F, 1, 0, 0, 0, 2, 0, 0, 0] =
      .ok (.line (-2147483648) 2147483647 1 2) [] := by decide

theorem test_decode_hline :
    decodeBytes [4, 0, 0, 0, 1, 0, 0, 0, 0xFE, 0xFF, 0xFF, 0xFF, 0xFF, 0xFF, 0xFF, 0xFF] =
      .ok (.hline 1 (-2) 4294967295) [] := by decide

theorem test_decode_vline :
    decodeBytes [5, 0, 0, 0, 0xFE, 0xFF, 0xFF, 0xFF, 1, 0, 0, 0, 0, 0, 0, 0x80] =
      .ok (.vline (-2) 1 2147483648) [] := by decide

theorem test_decode_oval :
    decodeBytes [6, 0, 0, 0, 0xFD, 0xFF, 0xFF, 0xFF, 2, 0, 0, 0, 7, 0, 0, 0, 8, 0, 0, 0] =
      .ok (.oval (-3) 2 7 8) [] := by decide

theorem test_decode_rect :
    decodeBytes [7, 0, 0, 0, 2, 0, 0, 0, 0xFD, 0xFF, 0xFF, 0xFF, 0, 1, 0, 0, 0, 0, 1, 0] =
      .ok (.rect 2 (-3) 256 65536) [] := by decide

theorem test_decode_text :
    decodeBytes [8, 0, 0, 0, 0, 0, 0, 0x80, 9, 0, 0, 0, 1, 0, 0, 0, 0xFF, 0xFF, 0xFF, 0xFF] =
      .ok (.text 2147483648 9 1 (-1)) [] := by decide

theorem test_decode_tone :
    decodeBytes [9, 0, 0, 0, 1, 2, 3, 4, 5, 6, 7, 8, 9, 10, 11, 12, 13, 14, 15, 16] =
      .ok (.tone 0x04030201#32 0x08070605#32 0x0C0B0A09#32 0x100F0E0D#32) [] := by decide

theorem test_decode_diskr :
    decodeBytes [10, 0, 0, 0, 0, 0x40, 0, 0, 0xFF, 0xFF, 0xFF, 0xFF] =
      .ok (.diskr 0x4000 4294967295) [] := by decide

theorem test_decode_diskw :
    decodeBytes [11, 0, 0, 0, 0xFF, 0xFF, 0, 0, 2, 0, 0, 0] = .ok (.diskw 0xFFFF 2) [] := by decide

theorem test_decode_trace :
    decodeBytes [12, 0, 0, 0, 2, 0, 0, 0, 0, 0x50, 0, 0] = .ok (.trace 2 0x5000) [] := by decide

/-- 30_encoding.md R93, R97, R98: reserved words and short forms are refused by name. -/
theorem test_decode_refuses :
    decodeBytes [0, 0, 0, 0] = .badCommand 0#32 ∧
      decodeBytes [0x0D, 0, 0, 0] = .badCommand 0x0D#32 ∧
      decodeBytes [0x09, 0, 0, 0x80] = .badCommand 0x80000009#32 ∧
      decodeBytes [0x0C, 0, 0, 0, 1, 0, 0, 0] = .truncated ∧
      decodeBytes [0x0C, 0, 0] = .truncated := by decide

/-- The host's table word of a row, its operand words zero. -/
theorem test_decodeTableWord :
    decodeTableWord 32 1 = some (.blit 0 0 0 0 0 0#32) ∧ decodeTableWord 32 12 = some (.trace 0 0) ∧
      decodeTableWord 32 13 = none ∧ decodeTableWord 32 0x101 = none := by decide

/-! ### Single steps, from 95_test_vectors.md -/

/-- V1. -/
theorem test_blit_one_bit :
    onNext (exec (.blit 0x2000 0 0 8 1 0#32) (poke (coloured 0x0040) 0x2000 [0x80]))
      (fun t => decide (bytesAt t 0xA0 2 = [0x03, 0x00])) = true := by decide

/-- V18: the last byte of memory may be sampled, the one after it may not. -/
theorem test_blit_past_memory :
    onNext (exec (.blit 0xFFFF 0 0 8 2 0#32) (coloured 0x21))
      (fun t => isFault (coloured 0x21) t 4#8 0x10000#32) = true := by decide

/-- V12. -/
theorem test_blitSub_part :
    onNext (exec (.blitSub 0x3000 10 10 6 2 5 1 16 0#32)
        (poke (poke (poke (coloured 0x21) 0x3000 [0, 0, 3, 0xC0, 2, 0x40]) 0x232 [0xFF, 0xFF])
          0x25A [0xFF, 0xFF]))
      (fun t => decide (bytesAt t 0x232 2 = [0x4F, 0x15]) &&
        decide (bytesAt t 0x25A 2 = [0x4F, 0x10])) = true := by decide +kernel

/-- V5 and V8, flags 15: two bits, both mirrors and the rotation. -/
theorem test_blitSub_rotated :
    onNext (exec (.blitSub 0x2000 0 0 4 2 0 0 4 15#32)
        (poke (coloured 0x4321) 0x2000 [0x1B, 0xF1]))
      (fun t => decide (((List.range 4).map fun py => (List.range 2).map fun px => pixelAt t px py) =
        [[1, 3], [0, 2], [3, 1], [3, 0]])) = true := by decide

/-- V23. -/
theorem test_line_clipped :
    onNext (exec (.line (-2) (-1) 3 1) (coloured 2))
      (fun t => decide (bytesAt t 0xA0 1 = [0x05]) && decide (bytesAt t 0xC8 1 = [0x50])) = true := by
  decide

/-- V22. -/
theorem test_line_points : linePoints 0 2 5 0 = [(5, 0), (4, 0), (3, 1), (2, 1), (1, 2), (0, 2)] := by
  decide

/-- V24 and V25. -/
theorem test_hline_edges :
    onNext (exec (.hline (-3) 0 6) (coloured 3)) (fun t => decide (bytesAt t 0xA0 2 = [0x2A, 0])) = true ∧
      onNext (exec (.hline 158 159 4294967295) (coloured 3))
        (fun t => decide (bytesAt t 0x199F 1 = [0xA0])) = true := by decide

/-- V26. -/
theorem test_vline_edges :
    onNext (exec (.vline 1 (-1) 3) (coloured 4))
        (fun t => decide (bytesAt t 0xA0 1 = [0x0C]) && decide (bytesAt t 0xC8 1 = [0x0C])) = true ∧
      onNext (exec (.vline 159 158 4294967295) (coloured 4))
        (fun t => decide (bytesAt t 0x1977 1 = [0xC0]) && decide (bytesAt t 0x199F 1 = [0xC0])) =
        true := by decide

/-- V34, w = h = 3: the middle pixel is the only fill. -/
theorem test_oval_small :
    onNext (exec (.oval 0 0 3 3) (coloured 0x32))
      (fun t => decide (((List.range 3).map fun py => (List.range 3).map fun px => pixelAt t px py) =
        [[1, 1, 1], [1, 2, 1], [1, 1, 1]])) = true := by decide +kernel

/-- V29, w = 3, h = 3, and the empty boxes. -/
theorem test_rect_small :
    onNext (exec (.rect 0 0 3 3) (coloured 0x32))
        (fun t => decide (((List.range 3).map fun py => (List.range 4).map fun px => pixelAt t px py) =
          [[1, 1, 1, 0], [1, 2, 1, 0], [1, 1, 1, 0]])) = true ∧
      onNext (exec (.rect 0 0 0 3) (coloured 0x32)) (fun t => decide (t.mem = (coloured 0x32).mem)) =
        true := by decide +kernel

/-- 44_text.md R192: a newline, a code with no glyph and a glyph of one ink pixel, column 1 of row 0. -/
def lettered : State :=
  { poke (coloured 0x0032) 0x2000 [0x0A, 0x07, 0x41] with
    cfg := { Config.suggested with font := List.replicate (8 * 0x41) 0#8 ++ [0x40] } }

theorem test_text_cursor :
    onNext (exec (.text 0x2000 3 0 (-8)) lettered)
      (fun t => decide ((List.range 12).map (fun k => pixelAt t (6 + k) 0) =
        [0, 0, 2, 1, 2, 2, 2, 2, 2, 2, 0, 0])) = true := by decide +kernel

/-- V40. -/
theorem test_text_past_memory :
    onNext (exec (.text 0xFFFE 3 0 0) lettered) (fun t => isFault lettered t 4#8 0x10000#32) = true ∧
      onNext (exec (.text 0xFFFE 0 0 0) lettered) (fun t => decide (t.mem = lettered.mem)) = true := by
  decide

/-- V46. -/
theorem test_tone_event :
    onNext (exec (.tone 0xFFFFFFFF#32 0#32 0xDEADBEEF#32 0xFFFFFFFF#32) State.reset)
      (fun t => decide (t.events = [.tone 0xFFFFFFFF#32 0#32 0xDEADBEEF#32 0xFFFFFFFF#32])) = true := by decide

/-- V41. -/
theorem test_diskr_short :
    onNext (exec (.diskr 0x4000 8) (State.reset.setDisk [0xDE, 0xAD, 0xBE, 0xEF]))
      (fun t => decide (bytesAt t 0x4000 5 = [0xDE, 0xAD, 0xBE, 0xEF, 0]) &&
        decide (t.cpAnswer = .result 4#32)) = true := by decide

/-- V43. -/
theorem test_diskr_range :
    onNext (exec (.diskr 0x14 2) (State.reset.setDisk [1, 2]))
        (fun t => isFault (State.reset.setDisk [1, 2]) t 5#8 0x14#32) = true ∧
      onNext (exec (.diskr 0x14 0) (State.reset.setDisk [1, 2]))
        (fun t => decide (t.cpAnswer = .result 0#32)) = true := by decide

/-- V42 and V44. -/
theorem test_diskw_replaces :
    onNext (exec (.diskw 0x4000 2) (poke (State.reset.setDisk [9, 9, 9]) 0x4000 [1, 2, 3]))
        (fun t => decide (t.disk = [1, 2]) && decide (t.cpAnswer = .result 2#32)) = true ∧
      onNext (exec (.diskw 0xFFFF 2) State.reset) (fun t => isFault State.reset t 4#8 0x10000#32) =
        true := by decide

/-- V45. -/
theorem test_trace_event :
    onNext (exec (.trace 0x14 2) (coloured 0x4321))
      (fun t => decide (t.events = [.trace [0x21, 0x43]])) = true := by decide

/-- V47. -/
theorem test_port_bytes :
    onNext (cartWrite 0x2001#16 .w4 0x11223344#32 State.reset)
        (fun t => decide (bytesAt t 0x2001 4 = [0x44, 0x33, 0x22, 0x11])) = true ∧
      onNext (cartRead 0x2001#16 .w2 (poke State.reset 0x2000 [0x44, 0x33, 0x22, 0x11]))
        (fun t => decide (t.cpAnswer = .data 0x2233#32)) = true := by decide

/-- V48 and V49. -/
theorem test_port_faults :
    onNext (cartRead 0x14#16 .w1 State.reset) (fun t => isFault State.reset t 2#8 0x14#32) = true ∧
      onNext (cartWrite 0xFFFE#16 .w4 0#32 State.reset)
        (fun t => isFault State.reset t 3#8 0xFFFE#32) = true := by decide

/-- V52. -/
theorem test_bad_command :
    onNext (issueCommand 0x101#32 zeroOperands State.reset)
      (fun t => isFault State.reset t 1#8 0x101#32) = true := by decide

/-- The first step after reset runs the placed command. -/
theorem test_withFetchWord :
    onNext (step (State.reset.withFetchWord 32 9))
      (fun t => decide (t.events = [.tone 0#32 0#32 0#32 0#32])) = true := by decide

/-! ### Witnesses: the hypotheses of each statement, met together -/

/-- Each constructor at a boundary of its operands. -/
theorem witness_DecodeOfEncode :
    (Instr.blit 4294967295 (-2147483648) 2147483647 4294967295 0 0xFFFFFFFF#32).wellFormed = true ∧
      (Instr.blitSub 0 2147483647 (-2147483648) 1 1 4294967295 4294967295 4294967295 0#32).wellFormed =
        true ∧
      (Instr.text 4294967295 4294967295 (-2147483648) 2147483647).wellFormed = true ∧
      (Instr.trace 4294967295 0).wellFormed = true := by decide

theorem witness_EncodeOfDecode :
    ∃ bs rest i, decodeBytes bs = .ok i rest ∧ rest ≠ [] :=
  ⟨[11, 0, 0, 0, 0xFF, 0xFF, 0, 0, 2, 0, 0, 0, 7], [7], .diskw 0xFFFF 2, by decide, by decide⟩

/-- TONE issued from a callback, with more operand words supplied than it counts. -/
def toneCall : State :=
  calling (.command 9#32 (operandsOf [1, 2, 3, 4, 5, 6, 7, 8, 9])) State.reset

theorem witness_StepRunsDecodedCommand :
    ∃ cmd ops p q i, toneCall.callback = some p ∧ p.turn = .acts (.command cmd ops) q ∧
      toneCall.fault.set = false ∧
      decodeLatches cmd ((toneCall.setCallback (some q)).latch cmd ops).op = some i :=
  ⟨_, _, _, _, .tone 1 2 3 4, rfl, rfl, rfl, rfl⟩

theorem witness_CommandLatchesItsOperands :
    ∃ cmd ops p q n t, toneCall.callback = some p ∧ p.turn = .acts (.command cmd ops) q ∧
      operandCount cmd = some n ∧ step toneCall = .next t :=
  ⟨_, _, _, _, 4, _, rfl, rfl, rfl, rfl⟩

/-- A state in whose callback the cartridge does `ops` over and over. -/
def repeating (ops : List CartOp) (s : State) : State :=
  s.setCallback (some { next := [], again := some ops })

/-- All six turns occur. -/
theorem witness_StepTakesTurns :
    (∃ o rest again, toneCall.callback = some { next := o :: rest, again := again }) ∧
      (∃ o rest, (repeating [.read 0x16 .w1] State.reset).callback =
        some { next := [], again := some (o :: rest) }) ∧
      (repeating [] State.reset).callback = some { next := [], again := some [] } ∧
      (State.reset.setCallback (some { next := [], again := none })).callback =
        some { next := [], again := none } ∧
      (∃ o rest, (hosting .present State.reset).callback = none ∧
        (hosting .present State.reset).host = o :: rest) ∧
      State.reset.callback = none ∧ State.reset.host = [] :=
  ⟨⟨_, _, _, rfl⟩, ⟨_, _, rfl⟩, rfl, rfl, ⟨_, _, rfl, rfl⟩, rfl, rfl⟩

/-- An operation that completes, one that faults, and a cartridge that only computes. -/
theorem witness_EndlessCallbackKeepsRunning :
    (∃ p l t, (repeating [.read 0x16 .w1] State.reset).callback = some p ∧ p.again = some l ∧
      (repeating [.read 0x16 .w1] State.reset).fault.set = false ∧
      step (repeating [.read 0x16 .w1] State.reset) = .next t ∧ t.fault.set = false) ∧
    (∃ t, step (repeating [.read 0 .w1] State.reset) = .next t ∧ t.fault.set = true) ∧
      ∃ t, step (repeating [] State.reset) = .next t ∧ t.callback ≠ none :=
  ⟨⟨_, _, _, rfl, rfl, rfl, rfl, by decide⟩, ⟨_, rfl, by decide⟩, ⟨_, rfl, by decide⟩⟩

/-- The signed rows are two, the others twelve; a byte just below a row and one just above it. -/
theorem witness_RegistersAreLittleEndianTypedFields :
    rowOf .mouseX ∈ regTable ∧ rowOf .mouseY ∈ regTable ∧ rowOf .netplay ∈ regTable ∧
      (rowOf .netplay).reg ≠ .mouseX ∧ (rowOf .netplay).reg ≠ .mouseY ∧
      0x19 < (rowOf .mouseX).address ∧
      (rowOf .mouseX).address + bytesOf (rowOf .mouseX).width ≤ 0x1C := by decide

/-- 10_state.md R25, R34: 0xFFFE in MOUSE_X is -2, in DRAW_COLORS 65534. -/
theorem test_register_signed :
    ((State.reset.mem.writeReg .mouseX 0xFFFE).regValue .mouseX,
      (State.reset.mem.writeReg .drawColors 0xFFFE).regValue .drawColors) = (-2, 65534) := by decide

/-- The words next to the ones that select a command, and one with a high bit set. -/
theorem witness_ReservedWordRaisesBadCommand (cmd : Word)
    (h : cmd = 0#32 ∨ cmd = 13#32 ∨ cmd = 0x80000009#32) :
    ∃ ops p q, (calling (.command cmd zeroOperands) State.reset).callback = some p ∧
      p.turn = .acts (.command cmd ops) q ∧
      (calling (.command cmd zeroOperands) State.reset).fault.set = false ∧
      (cmd.toNat = 0 ∨ 12 < cmd.toNat) := by
  refine ⟨_, _, _, rfl, rfl, rfl, ?_⟩
  rcases h with rfl | rfl | rfl <;> decide

/-- The last byte, the first framebuffer word, and an exact row. -/
theorem witness_CartReadAnswersBytes :
    State.reset.fault.set = false ∧
      (0xFFFF#16).toNat + bytesOf .w1 ≤ 0x10000 ∧ 0xA0 ≤ (0xFFFF#16).toNat ∧
      (0xA0#16).toNat + bytesOf .w4 ≤ 0x10000 ∧ 0xA0 ≤ (0xA0#16).toNat ∧
      (0x1C#16).toNat + bytesOf .w2 ≤ 0x10000 ∧ ((0x1C#16).toNat, bytesOf .w2) ∈ registerRows := by
  decide

theorem witness_CartWriteStoresBytes :
    State.reset.fault.set = false ∧
      (0xFFFC#16).toNat + bytesOf .w4 ≤ 0x10000 ∧ 0xA0 ≤ (0xFFFC#16).toNat ∧
      (0x20#16).toNat + bytesOf .w1 ≤ 0x10000 ∧ ((0x20#16).toNat, bytesOf .w1) ∈ registerRows ∧
      ((0x20#16).toNat, bytesOf .w1) ∉ hostRows := by decide

theorem witness_CartWriteToHostRowDropped :
    State.reset.fault.set = false ∧ ((0x16#16).toNat, bytesOf .w1) ∈ hostRows ∧
      ((0x1C#16).toNat, bytesOf .w2) ∈ hostRows := by decide

/-- A reserved byte, a row at the wrong width, and the last address below the framebuffer. -/
theorem witness_CartAccessOffTheRowsRaisesBadAccess :
    State.reset.fault.set = false ∧
      (0#16).toNat ≤ 0x9F ∧ ((0#16).toNat, bytesOf .w1) ∉ registerRows ∧
      (0x14#16).toNat ≤ 0x9F ∧ ((0x14#16).toNat, bytesOf .w4) ∉ registerRows ∧
      (0x9F#16).toNat ≤ 0x9F ∧ ((0x9F#16).toNat, bytesOf .w1) ∉ registerRows := by decide

theorem witness_CartAccessPastEndRaisesAddrRange :
    State.reset.fault.set = false ∧ 0xFFFF < (0xFFFF#16).toNat + bytesOf .w2 - 1 ∧
      0xFFFF < (0xFFFD#16).toNat + bytesOf .w4 - 1 := by decide

theorem witness_HostInputDepositsTheSnapshot :
    ∃ g1 g2 g3 g4 mb mx my rest,
      (hosting (.input 1 2 3 4 0x8000 0x7FFF 7) State.reset).callback = none ∧
      (hosting (.input 1 2 3 4 0x8000 0x7FFF 7) State.reset).host =
        .input g1 g2 g3 g4 mx my mb :: rest ∧
      (hosting (.input 1 2 3 4 0x8000 0x7FFF 7) State.reset).fault.set = false :=
  ⟨_, _, _, _, _, _, _, _, rfl, rfl, rfl⟩

/-- SYSTEM_FLAGS = 0 and SYSTEM_FLAGS = 1: both clauses. -/
theorem witness_FrameStartClearsUnlessPreserved :
    (hosting .frameStart (poke State.reset 0x1F [0])).callback = none ∧
      (hosting .frameStart (poke State.reset 0x1F [0])).host = [.frameStart] ∧
      (hosting .frameStart (poke State.reset 0x1F [0])).fault.set = false ∧
      ((hosting .frameStart (poke State.reset 0x1F [0])).readByte 0x1F).toNat % 2 = 0 ∧
      (hosting .frameStart (poke State.reset 0x1F [1])).callback = none ∧
      (hosting .frameStart (poke State.reset 0x1F [1])).host = [.frameStart] ∧
      (hosting .frameStart (poke State.reset 0x1F [1])).fault.set = false ∧
      ((hosting .frameStart (poke State.reset 0x1F [1])).readByte 0x1F).toNat % 2 = 1 :=
  ⟨rfl, rfl, rfl, by decide, rfl, rfl, rfl, by decide⟩

/-- From a faulted state, with a two-byte image; the reserved bytes at their bounds. -/
theorem witness_ResetSetsEveryItem :
    (hosting (.reset someItems) broken).callback = none ∧
      (hosting (.reset someItems) broken).host = [.reset someItems] ∧
      reservedByte 0 ∧ reservedByte 3 ∧ reservedByte 0x21 ∧ reservedByte 0x9F ∧
      1 < someItems.image.length ∧ 1 < 58976 :=
  ⟨rfl, rfl, .inl (by decide), .inl (by decide), .inr (by decide), .inr (by decide), by decide,
    by decide⟩

theorem witness_PresentAnswersThePicture :
    (hosting .present broken).callback = none ∧ (hosting .present broken).host = [.present] :=
  ⟨rfl, rfl⟩

theorem witness_ReadFaultAnswersAndCallbackOpens :
    (hosting .readFault broken).callback = none ∧ (hosting .readFault broken).host = [.readFault] ∧
      (hosting (.callback { next := [], again := none }) State.reset).callback = none ∧
      (hosting (.callback { next := [], again := none }) State.reset).host =
        [.callback { next := [], again := none }] ∧
      (hosting (.callback { next := [], again := none }) State.reset).fault.set = false :=
  ⟨rfl, rfl, rfl, rfl, rfl⟩

theorem witness_FaultedBlockAcceptsNothing : broken.fault.set = true := rfl

/-- One faulted step that keeps the fault, and HReset, which clears it. -/
theorem witness_FaultStaysUntilReset :
    (hosting .present broken).fault.set = true ∧ (∃ t, step (hosting .present broken) = .next t) ∧
      (hosting (.reset someItems) broken).fault.set = true ∧
      ∃ t, step (hosting (.reset someItems) broken) = .next t :=
  ⟨rfl, ⟨_, rfl⟩, rfl, ⟨_, rfl⟩⟩

/-- A command that completes and one that faults. -/
theorem witness_CommandFaultsArePrecise :
    (∃ t, exec (.trace 0x14 2) State.reset = .next t ∧ t.fault.set = false) ∧
      ∃ t, exec (.trace 0x10000 1) State.reset = .next t ∧ t.fault.set = true :=
  ⟨⟨_, rfl, by decide⟩, ⟨_, rfl, by decide⟩⟩

/-- DISKR, DISKW and a drawing command, each completing. -/
theorem witness_CommandsAnswerTheirResult :
    (Instr.diskr 0x4000 2).wellFormed = true ∧ (Instr.diskw 0x14 2).wellFormed = true ∧
      (Instr.vline 0 0 3).wellFormed = true ∧
      (∃ t, exec (.diskr 0x4000 2) (State.reset.setDisk [1, 2, 3]) = .next t ∧ t.fault.set = false) ∧
      (∃ t, exec (.diskw 0x14 2) State.reset = .next t ∧ t.fault.set = false) ∧
      ∃ t, exec (.vline 0 0 3) State.reset = .next t ∧ t.fault.set = false :=
  ⟨rfl, rfl, rfl, ⟨_, rfl, by decide⟩, ⟨_, rfl, by decide⟩, ⟨_, rfl, by decide⟩⟩

/-- A one-bit sprite 8 pixels wide samples one byte. -/
theorem sampled_byte {xinv : Bool} {ptr h a : Nat} {x y : Int} (hs : samples xinv 0#32 ptr x y 8 h 0 0 8 a) :
    ∃ j, j < h ∧ a = ptr + j := by
  obtain ⟨i, j, hi, hj, -, rfl⟩ := hs
  have e : spriteNumber xinv 0#32 8 h 0 0 8 i j = 8 * j + i := by simp [spriteNumber, mirrorsX]; omega
  refine ⟨j, hj, ?_⟩
  simp only [spriteByte, e]
  simp
  omega

/-- V1's command; the pixel (3, 0) is a target, the pixel (0, 1) is none. -/
theorem witness_BlitDrawsSprite :
    (coloured 0x40).fault.set = false ∧
      (∀ a, samples (coloured 0x40).cfg.rotateXinv 0#32 0x2000 0 0 8 1 0 0 8 a →
        a ≤ 0xFFFF ∧ (a < 0xA0 ∨ 0x199F < a)) ∧
      spriteTarget 0#32 0 0 3 0 = (((3 : Nat) : Int), ((0 : Nat) : Int)) ∧
      ∀ i j, i < 8 → j < 1 → spriteTarget 0#32 0 0 i j ≠ (((0 : Nat) : Int), ((1 : Nat) : Int)) := by
  refine ⟨rfl, fun a ha => ?_, by decide, fun i j _ hj h => ?_⟩
  · obtain ⟨j, hj, rfl⟩ := sampled_byte ha
    omega
  · simp [spriteTarget] at h
    omega

/-- A sprite of two rows at the far corner: (159, 159) is a target, (158, 159) is none; its second byte
would lie above 0xFFFF, but its row is not on the screen. -/
theorem witness_BlitSubDrawsSprite :
    State.reset.fault.set = false ∧
      (∀ a, samples State.reset.cfg.rotateXinv 0#32 0xFFFF 159 159 8 2 0 0 8 a →
        a ≤ 0xFFFF ∧ (a < 0xA0 ∨ 0x199F < a)) ∧
      spriteTarget 0#32 159 159 0 0 = (((159 : Nat) : Int), ((159 : Nat) : Int)) ∧
      ∀ i j, i < 8 → j < 2 →
        spriteTarget 0#32 159 159 i j ≠ (((158 : Nat) : Int), ((159 : Nat) : Int)) := by
  refine ⟨rfl, ?_, by decide, fun i j _ _ h => ?_⟩
  · rintro a ⟨i, j, hi, hj, hv, rfl⟩
    simp [spriteTarget, visible] at hv
    obtain rfl : i = 0 := by omega
    obtain rfl : j = 0 := by omega
    simp [spriteByte, spriteNumber, mirrorsX]
  · simp [spriteTarget] at h
    omega

/-- The source in the framebuffer; the pixel (0, 1) is no target. -/
theorem witness_BlitsCompleteOverAnySource :
    State.reset.fault.set = false ∧
      (∀ a, samples State.reset.cfg.rotateXinv 0#32 0xA0 1 0 8 1 0 0 8 a → a ≤ 0xFFFF) ∧
      ∀ i j, i < 8 → j < 1 → spriteTarget 0#32 1 0 i j ≠ (((0 : Nat) : Int), ((1 : Nat) : Int)) := by
  refine ⟨rfl, fun a ha => ?_, fun i j _ hj h => ?_⟩
  · obtain ⟨j, hj, rfl⟩ := sampled_byte ha
    omega
  · simp [spriteTarget] at h
    omega

/-- All three clauses, the source in the framebuffer, the last two mirrored and rotated. -/
theorem witness_BlitSourceOverlapFollowsTheOrder :
    State.reset.fault.set = false ∧ visible (1, 0) ∧ spriteByte 1#32 0xA0 (0 * 1 + 3) ≤ 0xFFFF ∧
      (∃ t, exec (.blitSub 0xA0 1 0 (1 + 1) 1 0 0 1 11#32) State.reset = .next t ∧
        t.fault.set = false) ∧
      ∃ t, exec (.blitSub 0xA0 1 0 1 (1 + 1) 0 0 1 15#32) State.reset = .next t ∧
        t.fault.set = false := by
  have clear : State.reset.fault.set = false := rfl
  refine ⟨clear, by simp [visible], by decide, ⟨_, exec_blitSub_of_clear clear .., ?_⟩,
    ⟨_, exec_blitSub_of_clear clear .., ?_⟩⟩ <;> decide

/-- V18: the second row's byte is the first address above memory. -/
theorem witness_BlitSourceAboveMemoryRaisesSrcRange :
    State.reset.fault.set = false ∧
      samples State.reset.cfg.rotateXinv 0#32 0xFFFF 0 0 8 2 0 0 8 0x10000 ∧ 0xFFFF < 0x10000 ∧
      ∀ b, samples State.reset.cfg.rotateXinv 0#32 0xFFFF 0 0 8 2 0 0 8 b → 0xFFFF < b → 0x10000 ≤ b :=
  ⟨rfl, ⟨0, 1, by decide, by decide, by simp [spriteTarget, visible], by decide⟩, by decide,
    fun _ _ h => h⟩

theorem witness_BlitReservedFlagsAreIgnored : (0x5#32).toNat % 16 = (0xFFFFFFF5#32).toNat % 16 := by
  decide

/-- The point (1, 0) is on the line from (-2, -1) to (3, 1); the point (0, 1) is not. -/
theorem witness_LineDrawsItsPoints :
    State.reset.fault.set = false ∧
      (((1 : Nat) : Int), ((0 : Nat) : Int)) ∈ linePoints (-2) (-1) 3 1 ∧
      (((0 : Nat) : Int), ((1 : Nat) : Int)) ∉ linePoints (-2) (-1) 3 1 := by decide

/-- Both slopes, both directions along the row, and endpoints to be exchanged. -/
theorem witness_LinePointsHaveAClosedForm :
    ((0 : Int) < 1 ∧ (0 : Int) ≤ 2) ∧ ((2 : Int) - 0).natAbs < ((0 : Int) - 5).natAbs ∧
      5 ≤ ((0 : Int) - 5).natAbs ∧ ((2 : Int) - 0).natAbs ≤ ((5 : Int) - 0).natAbs := by decide

/-- A blit past the right edge with its source past memory, a line and runs off the screen, an empty box,
and a glyph above the screen. -/
theorem witness_EmptyFootprintsChangeNothing :
    lettered.fault.set = false ∧
      (∀ i j, i < 4 → j < 2 → ¬ visible (spriteTarget 0#32 160 0 i j)) ∧
      (∀ p ∈ linePoints (-2) (-2) (-1) (-1), ¬ visible p) ∧
      (∀ k : Nat, k < 3 → ¬ visible ((-3 : Int) + k, 0)) ∧
      (∀ k : Nat, k < 3 → ¬ visible ((0 : Int), 160 + (k : Int))) ∧
      (∀ px py, inBox 5 5 0 9 px py → ¬ visible (px, py)) ∧
      glyphAt lettered 0x2002 0 ∧
      ∀ k row col, k < 1 → row < 8 → col < 8 → glyphAt lettered 0x2002 k →
        ¬ visible (cellPixel lettered 0x2002 0 (-8) k row col) := by
  refine ⟨rfl, ?_, ?_, ?_, ?_, ?_, ⟨by decide, by decide, by decide⟩, ?_⟩
  · intro i j _ _ h
    simp [spriteTarget, visible] at h
    omega
  · intro p hp h
    have : linePoints (-2) (-2) (-1) (-1) = [(-2, -2), (-1, -1)] := by decide
    rw [this] at hp
    simp at hp
    rcases hp with rfl | rfl <;> simp [visible] at h
  · intro k _ h
    simp [visible] at h
    omega
  · intro k _ h
    simp [visible] at h
    omega
  · intro px py hb _
    simp [inBox] at hb
    omega
  · intro k row col hk hr _ _ h
    obtain rfl : k = 0 := by omega
    simp [cellPixel, visible, linesBefore, cellsBefore] at h
    omega

theorem witness_LineIsSymmetric : State.reset.fault.set = false ∧ 159 < 160 := by decide

theorem witness_StraightLinesAreHlineAndVline : 1 ≤ 1 ∧ 1 ≤ 4294967295 := by decide

/-- A pixel at each end of the run, and the ones just outside it. -/
theorem witness_HlineDraws :
    State.reset.fault.set = false ∧
      (((5 : Nat) : Int) = 5 ∧ (3 : Int) ≤ ((3 : Nat) : Int) ∧ ((6 : Nat) : Int) < 3 + (4 : Nat)) ∧
      ¬ (3 : Int) ≤ ((2 : Nat) : Int) ∧ ¬ ((7 : Nat) : Int) < 3 + (4 : Nat) := by decide

theorem witness_VlineDraws :
    State.reset.fault.set = false ∧
      (((5 : Nat) : Int) = 5 ∧ (3 : Int) ≤ ((3 : Nat) : Int) ∧ ((6 : Nat) : Int) < 3 + (4 : Nat)) ∧
      ¬ (3 : Int) ≤ ((2 : Nat) : Int) ∧ ¬ ((7 : Nat) : Int) < 3 + (4 : Nat) := by decide

/-- A corner, the middle, and a pixel just outside the box 3 by 3. -/
theorem witness_RectDraws :
    State.reset.fault.set = false ∧ inBox 0 0 3 3 2 2 ∧ onRing 0 0 3 3 2 2 ∧ inBox 0 0 3 3 1 1 ∧
      ¬ onRing 0 0 3 3 1 1 ∧ ¬ inBox 0 0 3 3 3 2 := by
  simp [inBox, onRing, State.reset]

/-- An outline pixel, the fill pixel, and a pixel outside the 3 by 3 oval. -/
theorem witness_OvalDraws :
    State.reset.fault.set = false ∧ inEllipse 0 0 3 3 0 0 ∧ ¬ inEllipseFill 0 0 3 3 0 0 ∧
      inEllipseFill 0 0 3 3 1 1 ∧ ¬ inEllipse 0 0 3 3 3 0 := by
  simp [inEllipse, inEllipseFill, State.reset]

theorem witness_OvalBodyStaysInItsBox :
    inEllipse 0 0 3 3 2 2 ∧ inEllipse (-5) 7 1 1 (-5) 7 := by simp [inEllipse]

/-- A glyph in the second line after an unsupported code: its ink pixel, and a pixel of no cell. -/
theorem witness_TextDrawsItsGlyphs :
    lettered.fault.set = false ∧ (0x2000 + 3 ≤ 0x10000 ∧ 0x199F < 0x2000) ∧
      glyphAt lettered 0x2000 2 ∧
      cellPixel lettered 0x2000 0 (-8) 2 0 1 = (((9 : Nat) : Int), ((0 : Nat) : Int)) ∧
      ∀ k row col, k < 3 → row < 8 → col < 8 → glyphAt lettered 0x2000 k →
        cellPixel lettered 0x2000 0 (-8) k row col ≠ (((0 : Nat) : Int), ((100 : Nat) : Int)) := by
  refine ⟨rfl, by decide, ⟨by decide, by decide, by decide⟩, by decide, ?_⟩
  have hl : ∀ k, linesBefore (charAt lettered 0x2000) k ≤ k := by
    intro k
    induction k with
    | zero => exact le_refl _
    | succ k ih =>
      unfold linesBefore
      split
      · omega
      · omega
  intro k row col hk hr _ _ h
  have := hl k
  simp only [cellPixel, Prod.mk.injEq] at h
  omega

/-- A string over the whole framebuffer, the last byte of memory, and a glyph with its ink pixel and a pixel
outside its cell. -/
theorem witness_TextCompletesOverAnySource :
    lettered.fault.set = false ∧ 0xA0 + 6400 ≤ 0x10000 ∧ 0xFFFF ≤ 0xFFFF ∧
      0xA0 + (6399 + 1) ≤ 0x10000 ∧ glyphAt lettered 0x2002 0 ∧
      ((3 : Int) + ((1 : Nat) : Int), (5 : Int) + ((0 : Nat) : Int)) =
        (((4 : Nat) : Int), ((5 : Nat) : Int)) ∧
      ∀ row col : Nat, row < 8 → col < 8 → glyphAt lettered 0x2002 0 →
        ((3 : Int) + (col : Int), (5 : Int) + (row : Int)) ≠ (((2 : Nat) : Int), ((5 : Nat) : Int)) := by
  refine ⟨rfl, by decide, by decide, by decide, ⟨by decide, by decide, by decide⟩, by decide, ?_⟩
  intro row col _ _ _ h
  simp only [Prod.mk.injEq] at h
  omega

/-- Strings whose second byte, and whose first, is past memory; and DISKW likewise. -/
theorem witness_StringPastMemoryRaisesSrcRange :
    State.reset.fault.set = false ∧ 0xFFFF < 2 ^ 32 ∧ 0x10000 < 0xFFFF + 2 ∧
      0x10000 < 4294967295 + 1 ∧ 1 ≤ min 2 State.reset.cfg.diskCap ∧
      0x10000 < 0xFFFF + min 2 State.reset.cfg.diskCap := by decide

theorem witness_ToneForwardsItsWords : State.reset.fault.set = false := rfl

/-- Four bytes that end at 0xFFFF; a byte before them. -/
theorem witness_DiskrCopiesTheBlob :
    (State.reset.setDisk [1, 2, 3, 4]).fault.set = false ∧ 8 < 2 ^ 32 ∧
      (0xA0 ≤ 0xFFFC ∧ 0xFFFC + min 8 (State.reset.setDisk [1, 2, 3, 4]).disk.length ≤ 0x10000) ∧
      3 < min 8 (State.reset.setDisk [1, 2, 3, 4]).disk.length ∧ 0xFFFB < 0xFFFC := by decide

/-- Just below the framebuffer, and one byte past memory. -/
theorem witness_DiskrOutsideRaisesDstRange :
    (State.reset.setDisk [1, 2]).fault.set = false ∧ 0xFFFF < 2 ^ 32 ∧
      1 ≤ min 2 (State.reset.setDisk [1, 2]).disk.length ∧ 0x9F < 0xA0 ∧
      0xFFFF < 0xFFFF + min 2 (State.reset.setDisk [1, 2]).disk.length - 1 := by decide

/-- The last byte of memory, and a count of 0 anywhere. -/
theorem witness_DiskwReplacesTheBlob :
    State.reset.fault.set = false ∧ 1 < 2 ^ 32 ∧ 0xFFFF + min 1 State.reset.cfg.diskCap ≤ 0x10000 ∧
      min 0 State.reset.cfg.diskCap = 0 ∧ 0 < min 1 State.reset.cfg.diskCap := by decide

theorem witness_DiskRoundTrip :
    State.reset.fault.set = false ∧ 1024 < 2 ^ 32 ∧ 1024 ≤ State.reset.cfg.diskCap ∧
      0xFC00 + 1024 ≤ 0x10000 ∧ 0xA0 ≤ 0xA0 ∧ 0xA0 + 1024 ≤ 0x10000 := by decide

theorem witness_TraceForwardsTheString :
    State.reset.fault.set = false ∧ 0x14 + 2 ≤ 0x10000 ∧ 0xFFFF + 1 ≤ 0x10000 := by decide

/-- A state with memory, a blob and a running callback has the invariant, and steps. -/
theorem witness_InvariantIsKept :
    ∃ s t : State, s.Inv ∧ step s = .next t ∧ s.mem ≠ [] ∧ s.disk ≠ [] ∧ s.callback ≠ none := by
  refine ⟨(poke toneCall 0x2000 [5]).setDisk [1], _,
    ⟨by decide, by decide, nofun, nofun, fun a ha => ?_⟩, rfl, by decide, by decide, by decide⟩
  have hm : ((poke toneCall 0x2000 [5]).setDisk [1]).mem = [(0x2000, 5)] := by decide
  simp only [State.readByte, hm, Memory.read, Memory.lookup]
  unfold reservedByte at ha
  rw [if_neg (by omega)]
  dsimp only
  unfold Memory.initial
  rcases ha with h | h
  · rw [if_pos (by omega)]
    rfl
  · repeat rw [if_neg (by omega)]
    rfl

theorem witness_ConfigurationNeverChanges :
    ∃ t, step (hosting (.reset someItems) State.reset) = .next t := ⟨_, rfl⟩

/-- A command, and a CWrite and an HReset that change DRAW_COLORS. -/
theorem witness_DrawColorsChangesOnlyByWriteOrReset :
    (∃ t, exec (.trace 0x14 2) State.reset = .next t) ∧
      (∃ t, step (calling (.write 0x14#16 .w2 0x4321#32) State.reset) = .next t ∧
        t.readByte 0x14 ≠ (calling (.write 0x14#16 .w2 0x4321#32) State.reset).readByte 0x14) ∧
      ∃ t, step (hosting (.reset someItems) (coloured 0x4321)) = .next t ∧
        t.readByte 0x15 ≠ (hosting (.reset someItems) (coloured 0x4321)).readByte 0x15 :=
  ⟨⟨_, rfl⟩, ⟨_, rfl, by decide⟩, ⟨_, rfl, by decide⟩⟩

/-- A CWrite that changes NETPLAY; the bounds of the bytes that stay. -/
theorem witness_InputRegistersConstantInCallback :
    ∃ p t, (calling (.write 0x20#16 .w1 1#32) State.reset).callback = some p ∧
      step (calling (.write 0x20#16 .w1 1#32) State.reset) = .next t ∧ reservedByte 0x21 ∧
      (0x16 ≤ 0x1E ∧ 0x1E ≤ 0x1E) ∧
      0x20 ≤ 0x9F ∧ t.readByte 0x20 ≠ (calling (.write 0x20#16 .w1 1#32) State.reset).readByte 0x20 :=
  ⟨_, _, rfl, rfl, .inr (by decide), by decide, by decide, by decide⟩

theorem witness_DrawnPixelsTakeRoleSlots :
    isDrawing (.rect 0 0 2 2) = true ∧ (∃ t, exec (.rect 0 0 2 2) State.reset = .next t) ∧
      (∃ t, exec (.blit 0x10000 0 0 1 1 0#32) State.reset = .next t) :=
  ⟨rfl, ⟨_, rfl⟩, ⟨_, rfl⟩⟩

theorem witness_TransparentColorsDrawNothing :
    isDrawing (.oval 0 0 3 3) = true ∧ (∃ t, exec (.oval 0 0 3 3) (coloured 0) = .next t) ∧
      (coloured 0).readByte 0x14 = 0#8 ∧ (coloured 0).readByte 0x15 = 0#8 :=
  ⟨rfl, ⟨_, rfl⟩, by decide, by decide⟩

end Sys2Proof.Tests
end

section
/-! PROOFS. 00_scope.md: who moves (R18), and the parameters that no step changes (R19). -/

namespace Sys2Proof.Machine

open Sys2Proof

/-! ### Whose turn a written-out plan gives -/

@[simp] theorem CartPlan.turn_cons (o : CartOp) (rest : List CartOp) (again : Option (List CartOp)) :
    CartPlan.turn { next := o :: rest, again := again } =
      .acts o { next := rest, again := again } := rfl

@[simp] theorem CartPlan.turn_repeat_cons (o : CartOp) (rest : List CartOp) :
    CartPlan.turn { next := [], again := some (o :: rest) } =
      .acts o { next := rest, again := some (o :: rest) } := rfl

@[simp] theorem CartPlan.turn_repeat_nil :
    CartPlan.turn { next := [], again := some [] } = .computes := rfl

@[simp] theorem CartPlan.turn_done : CartPlan.turn { next := [], again := none } = .returns := rfl

/-! ### The configuration under each operation -/

@[simp] theorem State.finish_cfg (s : State) : s.finish.cfg = s.cfg := rfl

@[simp] theorem State.finishWith_cfg (s : State) (r : Nat) : (s.finishWith r).cfg = s.cfg := rfl

@[simp] theorem State.latch_cfg (s : State) (cmd : Word) (ops : Operands) :
    (s.latch cmd ops).cfg = s.cfg := by
  rw [State.latch_eq, State.setLatches_cfg]

@[simp] theorem hostReset_cfg (u : Unspecified) (s : State) : (hostReset u s).cfg = s.cfg := rfl

theorem exec_cfg {i : Instr} {s t : State} (h : exec i s = .next t) : t.cfg = s.cfg := by
  obtain ⟨-, ⟨u, hd, rfl⟩ | ⟨e, rfl⟩ | ⟨ptr, r, -, -, rfl⟩ | ⟨d, r, -, rfl⟩ | ⟨f, info, -, rfl⟩⟩ :=
    exec_next h
  · simpa using hd.cfg
  · simp
  · simp
  · simp
  · simp

theorem cartStep_cfg {o : CartOp} {s t : State} (h : cartStep o s = .next t) : t.cfg = s.cfg := by
  cases o with
  | read a n =>
    obtain ⟨-, ⟨f, rfl⟩ | ⟨r, rfl⟩⟩ := cartRead_next h <;> simp
  | write a n v =>
    obtain ⟨-, ⟨f, rfl⟩ | rfl | ⟨-, rfl⟩⟩ := cartWrite_next h <;> simp
  | command cmd ops =>
    obtain ⟨-, rfl | ⟨i, -, hi⟩⟩ := issueCommand_next h
    · simp
    · simpa using exec_cfg hi

/-- Everything a host operation that answers a next state can have done (60_exceptions.md R238): it
reset the block, it stored bytes or began a callback in an unfaulted block, or it only answered. -/
theorem hostStep_next {o : HostOp} {s t : State} (h : hostStep o s = .next t) :
    (∃ u, o = .reset u ∧ t = hostReset u s) ∨
      (s.fault.set = false ∧
        ((∃ g1 g2 g3 g4 mx my mb, o = .input g1 g2 g3 g4 mx my mb ∧
            t = (s.setMem (inputMemory s.mem g1 g2 g3 g4 mx my mb)).answerHost .done) ∨
          (o = .frameStart ∧ t = (s.setMem (frameStartMemory s)).answerHost .done) ∨
          (∃ body, o = .callback body ∧ t = s.setCallback (some body)))) ∨
      (o = .present ∧ t = s.answerHost (pictureOf s)) ∨
      (o = .readFault ∧ t = s.answerHost (.latch s.fault)) := by
  cases o with
  | reset u => cases h; exact .inl ⟨u, rfl, rfl⟩
  | input g1 g2 g3 g4 mx my mb =>
    simp only [hostStep, State.perform_next] at h
    obtain ⟨hf, rfl⟩ := h
    exact .inr (.inl ⟨hf, .inl ⟨g1, g2, g3, g4, mx, my, mb, rfl, rfl⟩⟩)
  | frameStart =>
    simp only [hostStep, State.perform_next] at h
    obtain ⟨hf, rfl⟩ := h
    exact .inr (.inl ⟨hf, .inr (.inl ⟨rfl, rfl⟩)⟩)
  | callback body =>
    simp only [hostStep, State.perform_next] at h
    obtain ⟨hf, rfl⟩ := h
    exact .inr (.inl ⟨hf, .inr (.inr ⟨body, rfl, rfl⟩)⟩)
  | present => cases h; exact .inr (.inr (.inl ⟨rfl, rfl⟩))
  | readFault => cases h; exact .inr (.inr (.inr ⟨rfl, rfl⟩))

theorem hostStep_cfg {o : HostOp} {s t : State} (h : hostStep o s = .next t) : t.cfg = s.cfg := by
  obtain ⟨u, -, rfl⟩ |
    ⟨-, ⟨_, _, _, _, _, _, _, -, rfl⟩ | ⟨-, rfl⟩ | ⟨body, -, rfl⟩⟩ | ⟨-, rfl⟩ | ⟨-, rfl⟩ :=
    hostStep_next h <;> simp

theorem step_cfg {s t : State} (h : step s = .next t) : t.cfg = s.cfg := by
  obtain ⟨p, o, q, -, -, ho⟩ | ⟨p, -, -, rfl⟩ | ⟨p, -, -, rfl⟩ | ⟨-, o, rest, -, ho⟩ | ⟨-, -, rfl⟩ :=
    step_next h
  · simpa using cartStep_cfg ho
  · rfl
  · simp
  · simpa using hostStep_cfg ho
  · rfl

end Sys2Proof.Machine

namespace Sys2Proof.Proofs

open Sys2Proof Sys2Proof.Machine

/-- Settles O51 (00_scope.md R19): every turn of `step_next` keeps the parameters. -/
theorem configurationNeverChanges : Obligations.ConfigurationNeverChanges :=
  fun _ _ => step_cfg

/-- Settles O7: the four turns of the cartridge's plan (00_scope.md R18, 60_exceptions.md R230), then
the host's two cases. -/
theorem stepTakesTurns : Obligations.StepTakesTurns := by
  intro s
  refine ⟨?operation, ?startsAgain, ?computes, ?returns, ?host, ?idle⟩
  case operation => exact fun o rest again hc => step_cart hc (CartPlan.turn_cons o rest again)
  case startsAgain => exact fun o rest hc => step_cart hc (CartPlan.turn_repeat_cons o rest)
  case computes => exact fun hc => step_compute hc CartPlan.turn_repeat_nil
  case returns => exact fun hc => step_return hc CartPlan.turn_done
  case host => exact fun _ _ hc hh => step_host hc hh
  case idle => exact fun hc hh => step_idle hc hh

end Sys2Proof.Proofs
end

section
/-! PROOFS. 10_state.md: the register rows (R24, R25), what a step leaves unchanged in the register
window (R30, R38, R49), the latches (R42), the fault latch (R44), and the invariant of the machine. -/

namespace Sys2Proof.Machine

open Sys2Proof

/-! ### The fields under the ways an operation completes -/

@[simp] theorem State.finish_mem (s : State) : s.finish.mem = s.mem := rfl
@[simp] theorem State.finish_cmd (s : State) : s.finish.cmd = s.cmd := rfl
@[simp] theorem State.finish_op (s : State) : s.finish.op = s.op := rfl

@[simp] theorem State.finishWith_mem (s : State) (r : Nat) : (s.finishWith r).mem = s.mem := rfl
@[simp] theorem State.finishWith_cmd (s : State) (r : Nat) : (s.finishWith r).cmd = s.cmd := rfl
@[simp] theorem State.finishWith_op (s : State) (r : Nat) : (s.finishWith r).op = s.op := rfl

@[simp] theorem State.raise_cmd (s : State) (f : FaultName) (i : Word) :
    (s.raise f i).cmd = s.cmd := by unfold State.raise; split <;> rfl
@[simp] theorem State.raise_op (s : State) (f : FaultName) (i : Word) :
    (s.raise f i).op = s.op := by unfold State.raise; split <;> rfl

@[simp] theorem State.latch_mem (s : State) (cmd : Word) (ops : Operands) :
    (s.latch cmd ops).mem = s.mem := by rw [State.latch_eq, State.setLatches_mem]

/-! ### The register rows (R24, R25) -/

theorem rowOf_reg {row : RegRow} (h : row ∈ regTable) : rowOf row.reg = row := by
  revert row
  decide

/-- Every register lies in 0x0004 to 0x0020, between the reserved bytes (R38). -/
theorem rowOf_bounds (r : Reg) :
    0x04 ≤ (rowOf r).address ∧ (rowOf r).address + bytesOf (rowOf r).width ≤ 0x21 := by
  cases r <;> decide

/-- The rows the cartridge may write are PALETTE and DRAW_COLORS, before the input registers, and
SYSTEM_FLAGS and NETPLAY, after them. -/
theorem readWrite_row_bounds {row : RegRow} (h : row ∈ regTable) (hw : row.rights = .readWrite) :
    0x04 ≤ row.address ∧ row.address + bytesOf row.width ≤ 0x21 ∧
      (row.address + bytesOf row.width ≤ 0x16 ∨ 0x1F ≤ row.address) := by
  revert row
  decide

/-- The row a DRAW_COLORS byte lies in. -/
theorem eq_drawColors_of_row_covers {row : RegRow} (h : row ∈ regTable) {a : Nat}
    (ha : a = 0x14 ∨ a = 0x15) (hl : row.address ≤ a) (hu : a < row.address + bytesOf row.width) :
    row = rowOf .drawColors := by
  have covers : ∀ r ∈ regTable, r.address ≤ 0x15 → 0x14 < r.address + bytesOf r.width →
      r = rowOf .drawColors := by decide
  exact covers row h (by omega) (by omega)

theorem findRow_some {a : Nat} {n : Width} {row : RegRow} (h : findRow a n = some row) :
    row ∈ regTable ∧ row.address = a ∧ row.width = n := by
  have hp := List.find?_some h
  simp only [Bool.and_eq_true, decide_eq_true_eq] at hp
  exact ⟨List.mem_of_find?_eq_some h, hp⟩

/-! ### Registers as typed fields (R25) -/

theorem byteOf_toNat (v k : Nat) : (byteOf v k).toNat = v / 256 ^ k % 256 := by
  rw [byteOf, BitVec.toNat_ofNat, Nat.shiftRight_eq_div_pow, pow_mul]
  rfl

/-- A little-endian read of the bytes of `v` is `v`, cut to those bytes (20_memory.md R60). -/
theorem Memory.readLE_of_bytes {m : Memory} {a n v : Nat}
    (h : ∀ k, k < n → m.read (a + k) = byteOf v k) : m.readLE a n = v % 256 ^ n := by
  induction n generalizing a v with
  | zero => simp [Memory.readLE, Nat.mod_one]
  | succ n ih =>
    have low : (m.read a).toNat = v % 256 := by
      have := congrArg BitVec.toNat (h 0 (by omega))
      simpa [byteOf_toNat] using this
    have high : m.readLE (a + 1) n = v / 256 % 256 ^ n := ih fun k hk => by
      rw [show a + 1 + k = a + (k + 1) by omega, h (k + 1) (by omega)]
      apply BitVec.eq_of_toNat_eq
      rw [byteOf_toNat, byteOf_toNat, pow_succ', Nat.div_div_eq_div_mul]
    rw [Memory.readLE, low, high, pow_succ', Nat.mod_mul]

theorem Memory.readLE_writeLE_same (m : Memory) {a n : Nat} (h : a + n ≤ 0x10000) (v : Nat) :
    (m.writeLE a n v).readLE a n = v % 256 ^ n :=
  Memory.readLE_of_bytes fun k hk => by
    rw [Memory.read_writeLE, if_pos (by omega), Nat.add_sub_cancel_left]

theorem Memory.readReg_writeReg_same (m : Memory) (r : Reg) (v : Nat) :
    (m.writeReg r v).readReg r = v % 256 ^ bytesOf (rowOf r).width :=
  m.readLE_writeLE_same (by have := rowOf_bounds r; omega) v

theorem Memory.read_writeReg_outside (m : Memory) {r : Reg} {b : Nat} (v : Nat)
    (h : b < (rowOf r).address ∨ (rowOf r).address + bytesOf (rowOf r).width ≤ b) :
    (m.writeReg r v).read b = m.read b := by
  rw [Memory.read_writeReg, if_neg (by omega)]

theorem Memory.regValue_of_unsigned (m : Memory) {r : Reg} (hx : r ≠ .mouseX) (hy : r ≠ .mouseY) :
    m.regValue r = m.readReg r := by
  cases r with
  | mouseX => exact absurd rfl hx
  | mouseY => exact absurd rfl hy
  | _ => rfl

theorem Memory.regValue_of_mouse (m : Memory) {r : Reg} (h : r = .mouseX ∨ r = .mouseY) :
    m.regValue r = (BitVec.ofNat 16 (m.readLE (rowOf r).address 2)).toInt := by
  rcases h with rfl | rfl <;> rfl

/-- Two little-endian bytes as a two's complement number: the top bit is that of the upper byte. -/
theorem Memory.toInt_readLE_two (m : Memory) (a : Nat) :
    (BitVec.ofNat 16 (m.readLE a 2)).toInt =
      if (m.read (a + 1)).toNat < 128 then
        ((m.read a).toNat + 256 * (m.read (a + 1)).toNat : Int)
      else (m.read a).toNat + 256 * (m.read (a + 1)).toNat - 65536 := by
  have hlo := (m.read a).isLt
  have hhi := (m.read (a + 1)).isLt
  have hv : m.readLE a 2 = (m.read a).toNat + 256 * (m.read (a + 1)).toNat := by
    simp [Memory.readLE]
  rw [hv, BitVec.toInt_eq_toNat_cond, BitVec.toNat_ofNat, Nat.mod_eq_of_lt (by omega)]
  split <;> split <;> omega

/-! ### The latches of a command (R42) -/

theorem operandCount_ge_two {cmd : Word} {n : Nat} (h : operandCount cmd = some n) : 2 ≤ n := by
  unfold operandCount at h
  split at h <;> cases h <;> decide

theorem State.latch_op {cmd : Word} {n : Nat} (h : operandCount cmd = some n) (s : State)
    (ops : Operands) : (s.latch cmd ops).op = latchFirst n ops s.op := by
  simp only [State.latch, h, State.setLatches_op]

theorem exec_latches {i : Instr} {s t : State} (h : exec i s = .next t) :
    t.cmd = s.cmd ∧ t.op = s.op := by
  obtain ⟨-, ⟨u, hd, rfl⟩ | ⟨e, rfl⟩ | ⟨ptr, r, -, -, rfl⟩ | ⟨d, r, -, rfl⟩ | ⟨f, info, -, rfl⟩⟩ :=
    exec_next h
  · rw [hd.eq]; exact ⟨rfl, rfl⟩
  · exact ⟨rfl, rfl⟩
  · exact ⟨rfl, rfl⟩
  · exact ⟨rfl, rfl⟩
  · simp

theorem issueCommand_latches {cmd : Word} {ops : Operands} {s t : State}
    (h : issueCommand cmd ops s = .next t) : t.cmd = cmd ∧ t.op = (s.latch cmd ops).op := by
  obtain ⟨-, rfl | ⟨i, -, hi⟩⟩ := issueCommand_next h
  · simp
  · simpa using exec_latches hi

/-! ### The fault latch under a step of the cartridge (R44) -/

/-- A faulted block takes no operation of the cartridge (60_exceptions.md R228). -/
theorem cartStep_clear {o : CartOp} {s t : State} (h : cartStep o s = .next t) :
    s.fault.set = false := by
  cases o with
  | read a n => exact (cartRead_next h).1
  | write a n v => exact (cartWrite_next h).1
  | command cmd ops => exact (issueCommand_next h).1

/-! ### Where the reserved bytes lie (R38) -/

theorem reservedByte.le_window {a : Nat} (h : reservedByte a) : a ≤ 0x9F := by
  unfold reservedByte at h
  omega

theorem reservedByte.outside_rows {a : Nat} (h : reservedByte a) : a < 0x04 ∨ 0x21 ≤ a := by
  unfold reservedByte at h
  omega

/-! ### The register window (R30, R38, R49) -/

/-- No command writes below the framebuffer (20_memory.md R71). -/
theorem exec_read_window {i : Instr} {s t : State} (h : exec i s = .next t) {a : Nat}
    (ha : a ≤ 0x9F) : t.mem.read a = s.mem.read a := by
  obtain ⟨-, ⟨u, hd, rfl⟩ | ⟨e, rfl⟩ | ⟨ptr, r, hr, hp, rfl⟩ | ⟨d, r, -, rfl⟩ | ⟨f, info, -, rfl⟩⟩ :=
    exec_next h
  · exact hd.agrees a (.inl (by omega))
  · rfl
  · rw [State.finishWith_mem, State.setMem_mem, Memory.read_writeBytes,
      if_neg (by rw [List.length_take]; omega)]
  · rfl
  · rw [State.raise_mem]

/-- What a step of the cartridge changes in the register window, it changes by a CWrite that hits
exactly a row it may write (20_memory.md R67, R68). -/
theorem cartStep_changes_window {o : CartOp} {s t : State} (h : cartStep o s = .next t) {a : Nat}
    (ha : a ≤ 0x9F) (hne : t.mem.read a ≠ s.mem.read a) :
    ∃ row ∈ regTable, row.rights = .readWrite ∧
      row.address ≤ a ∧ a < row.address + bytesOf row.width ∧
      ∃ b v, b.toNat = row.address ∧ o = .write b row.width v := by
  cases o with
  | read b n =>
    obtain ⟨-, ⟨f, rfl⟩ | ⟨r, rfl⟩⟩ := cartRead_next h <;> simp at hne
  | command cmd ops =>
    obtain ⟨-, rfl | ⟨i, -, hi⟩⟩ := issueCommand_next h
    · simp at hne
    · exact absurd (by simpa using exec_read_window hi ha) hne
  | write b n v =>
    obtain ⟨-, ⟨f, rfl⟩ | rfl | ⟨hp, rfl⟩⟩ := cartWrite_next h
    · simp at hne
    · simp at hne
    · have hab : b.toNat ≤ a ∧ a < b.toNat + bytesOf n := by
        by_contra hout
        rw [State.finish_mem, State.setMem_mem, Memory.read_writeLE, if_neg (by omega)] at hne
        exact hne rfl
      obtain ⟨-, -, hlow | ⟨row, hrow, hw⟩⟩ := portVerdict_performed hp
      · omega
      · obtain ⟨hm, hra, rfl⟩ := findRow_some hrow
        exact ⟨row, hm, hw rfl, by omega, by omega, b, v, hra.symm, rfl⟩

/-- The input registers and the reserved bytes are constant for the cartridge (R38, R49). -/
theorem cartStep_read_input_or_reserved {o : CartOp} {s t : State} (h : cartStep o s = .next t)
    {a : Nat} (ha : (0x16 ≤ a ∧ a ≤ 0x1E) ∨ reservedByte a) : t.mem.read a = s.mem.read a := by
  by_contra hne
  have low : a ≤ 0x9F := ha.elim (fun hi => by omega) reservedByte.le_window
  obtain ⟨row, hm, hw, hl, hu, -⟩ := cartStep_changes_window h low hne
  have hb := readWrite_row_bounds hm hw
  rcases ha with hi | hr
  · omega
  · have := hr.outside_rows
    omega

/-- HFrameStart writes no byte outside the framebuffer (70_reset_and_hazards.md R257). -/
theorem frameStartMemory_read_outside (s : State) {a : Nat} (h : a < 0xA0 ∨ 0x199F < a) :
    (frameStartMemory s).read a = s.mem.read a := by
  unfold frameStartMemory
  split
  · rfl
  · rw [clearedMemory, Memory.read_writeBytes, if_neg (by rw [List.length_replicate]; omega)]

/-- Of the host's operations only HReset changes a byte below the input registers. -/
theorem hostStep_read_below_input {o : HostOp} {s t : State} (h : hostStep o s = .next t) {a : Nat}
    (ha : a < 0x16) : (∃ u, o = .reset u) ∨ t.mem.read a = s.mem.read a := by
  obtain ⟨u, rfl, -⟩ |
    ⟨-, ⟨_, _, _, _, _, _, _, -, rfl⟩ | ⟨-, rfl⟩ | ⟨body, -, rfl⟩⟩ | ⟨-, rfl⟩ | ⟨-, rfl⟩ :=
    hostStep_next h
  · exact .inl ⟨u, rfl⟩
  · exact .inr (inputMemory_read_outside (.inl ha))
  · exact .inr (frameStartMemory_read_outside s (.inl (by omega)))
  · exact .inr rfl
  · exact .inr rfl
  · exact .inr rfl

/-! ### The reserved bytes (R38) -/

theorem Memory.initial_reserved {a : Nat} (h : reservedByte a) : Memory.initial a = 0#8 := by
  unfold Memory.initial
  rcases h with h | ⟨h, -⟩
  · exact if_pos (by omega)
  · iterate 5 rw [if_neg (by omega)]
    rfl

/-- A register's bytes are not reserved. -/
theorem Memory.read_writeReg_reserved {a : Nat} (h : reservedByte a) (m : Memory) (r : Reg)
    (v : Nat) : (m.writeReg r v).read a = m.read a := by
  have hb := rowOf_bounds r
  have ha := h.outside_rows
  exact m.read_writeReg_outside v (by omega)

theorem resetMemory_read_reserved {a : Nat} (h : reservedByte a) (c : Config) (u : Unspecified) :
    (resetMemory c u).read a = 0#8 := by
  have ha := h.le_window
  simp only [resetMemory, Memory.read_writeReg_reserved h]
  rw [Memory.read_writeBytes, if_neg (by omega)]
  exact Memory.initial_reserved h

/-! ### The invariant under each operation of the state -/

theorem State.Inv.clear_of_callback {s : State} {p : CartPlan} (h : s.Inv)
    (hc : s.callback = some p) : s.fault.set = false := by
  cases hf : s.fault.set with
  | false => rfl
  | true => rw [h.ended hf] at hc; cases hc

theorem State.Inv.setMem {s : State} (h : s.Inv) {m : Memory} (hw : m.wf = true)
    (hr : ∀ a, reservedByte a → m.read a = 0#8) : (s.setMem m).Inv :=
  ⟨hw, h.blob, h.ended, h.code, hr⟩

theorem State.Inv.setDisk {s : State} (h : s.Inv) {d : List Byte} (hd : d.length ≤ s.cfg.diskCap) :
    (s.setDisk d).Inv :=
  ⟨h.memory, hd, h.ended, h.code, h.reserved⟩

/-- A callback begins or goes on in an unfaulted block only. -/
theorem State.Inv.setCallback {s : State} (h : s.Inv) (hf : s.fault.set = false)
    (c : Option CartPlan) : (s.setCallback c).Inv :=
  ⟨h.memory, h.blob, by simp [hf], h.code, h.reserved⟩

theorem State.Inv.setHost {s : State} (h : s.Inv) (l : List HostOp) : (s.setHost l).Inv :=
  ⟨h.memory, h.blob, h.ended, h.code, h.reserved⟩

theorem State.Inv.emit {s : State} (h : s.Inv) (e : Event) : (s.emit e).Inv :=
  ⟨h.memory, h.blob, h.ended, h.code, h.reserved⟩

theorem State.Inv.answerCart {s : State} (h : s.Inv) (r : CartAnswer) : (s.answerCart r).Inv :=
  ⟨h.memory, h.blob, h.ended, h.code, h.reserved⟩

theorem State.Inv.answerHost {s : State} (h : s.Inv) (r : HostAnswer) : (s.answerHost r).Inv :=
  ⟨h.memory, h.blob, h.ended, h.code, h.reserved⟩

theorem State.Inv.latch {s : State} (h : s.Inv) (cmd : Word) (ops : Operands) :
    (s.latch cmd ops).Inv := by
  rw [State.latch_eq]
  exact ⟨h.memory, h.blob, h.ended, h.code, h.reserved⟩

theorem faultNumber_bounds (f : FaultName) :
    1 ≤ (faultNumber f).toNat ∧ (faultNumber f).toNat ≤ 5 := by
  cases f <;> decide

/-- Taking a fault ends the callback and writes one of the five codes (60_exceptions.md R221, R222). -/
theorem State.Inv.raise {s : State} (h : s.Inv) (hf : s.fault.set = false) (f : FaultName)
    (info : Word) : (s.raise f info).Inv := by
  rw [State.raise_of_clear hf]
  exact ⟨h.memory, h.blob, fun _ => rfl, fun _ => faultNumber_bounds f, h.reserved⟩

theorem State.Inv.draws {s t : State} (h : s.Inv) (hd : Draws s t) : t.Inv := by
  rw [hd.eq]
  refine h.setMem (hd.wf h.memory) fun a ha => ?_
  rw [hd.agrees a (.inl (Nat.lt_succ_of_le ha.le_window))]
  exact h.reserved a ha

theorem hostReset_inv {s : State} (h : s.Inv) (u : Unspecified) : (hostReset u s).Inv :=
  ⟨wf_resetMemory s.cfg u, h.blob, nofun, nofun, fun _ ha => resetMemory_read_reserved ha s.cfg u⟩

/-! ### The invariant under each agent's step -/

theorem exec_inv {i : Instr} {s t : State} (hs : s.Inv) (h : exec i s = .next t) : t.Inv := by
  have window : ∀ a, reservedByte a → t.mem.read a = 0#8 := fun a ha =>
    (exec_read_window h ha.le_window).trans (hs.reserved a ha)
  obtain ⟨hf, ⟨u, hd, rfl⟩ | ⟨e, rfl⟩ | ⟨ptr, r, -, -, rfl⟩ | ⟨d, r, hl, rfl⟩ | ⟨f, info, -, rfl⟩⟩ :=
    exec_next h
  · exact (hs.draws hd).answerCart _
  · exact (hs.emit e).answerCart _
  · exact (hs.setMem (Memory.wf_writeBytes hs.memory _ _) window).answerCart _
  · exact (hs.setDisk hl).answerCart _
  · exact hs.raise hf f info

theorem cartStep_inv {o : CartOp} {s t : State} (hs : s.Inv) (h : cartStep o s = .next t) :
    t.Inv := by
  have kept : ∀ a, reservedByte a → t.mem.read a = 0#8 := fun a ha =>
    (cartStep_read_input_or_reserved h (.inr ha)).trans (hs.reserved a ha)
  cases o with
  | read a n =>
    obtain ⟨hf, ⟨f, rfl⟩ | ⟨r, rfl⟩⟩ := cartRead_next h
    · exact hs.raise hf f _
    · exact hs.answerCart r
  | write a n v =>
    obtain ⟨hf, ⟨f, rfl⟩ | rfl | ⟨-, rfl⟩⟩ := cartWrite_next h
    · exact hs.raise hf f _
    · exact hs.answerCart _
    · exact (hs.setMem (Memory.wf_writeLE hs.memory _ _ _) kept).answerCart _
  | command cmd ops =>
    obtain ⟨hf, rfl | ⟨i, -, hi⟩⟩ := issueCommand_next h
    · exact (hs.latch cmd ops).raise (by rw [State.latch_eq]; exact hf) _ _
    · exact exec_inv (hs.latch cmd ops) hi

theorem hostStep_inv {o : HostOp} {s t : State} (hs : s.Inv) (h : hostStep o s = .next t) :
    t.Inv := by
  obtain ⟨u, -, rfl⟩ |
    ⟨hf, ⟨_, _, _, _, _, _, _, -, rfl⟩ | ⟨-, rfl⟩ | ⟨body, -, rfl⟩⟩ | ⟨-, rfl⟩ | ⟨-, rfl⟩ :=
    hostStep_next h
  · exact hostReset_inv hs u
  · refine (hs.setMem (wf_inputMemory hs.memory ..) fun a ha => ?_).answerHost _
    have hr := ha.outside_rows
    rw [inputMemory_read_outside (by omega)]
    exact hs.reserved a ha
  · refine (hs.setMem (wf_frameStartMemory hs.memory) fun a ha => ?_).answerHost _
    rw [frameStartMemory_read_outside s (.inl (Nat.lt_succ_of_le ha.le_window))]
    exact hs.reserved a ha
  · exact hs.setCallback hf _
  · exact hs.answerHost _
  · exact hs.answerHost _

theorem step_inv {s t : State} (hs : s.Inv) (h : step s = .next t) : t.Inv := by
  obtain ⟨p, o, q, hc, -, ho⟩ | ⟨p, -, -, rfl⟩ | ⟨p, hc, -, rfl⟩ | ⟨-, o, rest, -, ho⟩ | ⟨-, -, rfl⟩ :=
    step_next h
  · exact cartStep_inv (hs.setCallback (hs.clear_of_callback hc) _) ho
  · exact hs
  · exact (hs.setCallback (hs.clear_of_callback hc) none).answerHost _
  · exact hostStep_inv (hs.setHost rest) ho
  · exact hs

theorem reset_inv : State.reset.Inv :=
  ⟨rfl, Nat.zero_le _, nofun, nofun, fun _ => Memory.initial_reserved⟩

end Sys2Proof.Machine

namespace Sys2Proof.Proofs

open Sys2Proof Sys2Proof.Machine

/-- Settles O49 (R38, R45, 60_exceptions.md R222, R228): each agent's step is built of operations that
keep the invariant. -/
theorem invariantIsKept : Obligations.InvariantIsKept :=
  fun _ _ => step_inv

/-- Settles O50: at reset the memory lists no cell, so a reserved byte reads as its reset contents. -/
theorem invariantAtReset : Obligations.InvariantAtReset := reset_inv

/-- Settles O6 (R42): every opcode counts two operands or more, and what runs after the latching keeps
the latches. -/
theorem commandLatchesItsOperands : Obligations.CommandLatchesItsOperands := by
  intro s t cmd ops p q n hc ht hn h
  rw [step_cart hc ht] at h
  obtain ⟨hcmd, hop⟩ := issueCommand_latches h
  have h2 := operandCount_ge_two hn
  rw [State.latch_op hn] at hop
  rw [hcmd, hop]
  exact ⟨rfl, if_pos (by omega), if_pos (by omega), rfl, rfl, rfl, rfl, rfl, rfl, rfl⟩

/-- Settles O20 (R44, 60_exceptions.md R228, R229): a faulted block takes no operation of the
cartridge, and of the host only HReset, HPresent and HReadFault. -/
theorem faultStaysUntilReset : Obligations.FaultStaysUntilReset := by
  intro s t hs h
  obtain ⟨p, o, q, -, -, ho⟩ | ⟨p, -, -, rfl⟩ | ⟨p, -, -, rfl⟩ | ⟨hc, o, rest, hh, ho⟩ | ⟨-, -, rfl⟩ :=
    step_next h
  · have hf := cartStep_clear ho
    rw [State.setCallback_fault, hs] at hf
    cases hf
  · exact .inl ⟨rfl, rfl, rfl, rfl⟩
  · exact .inl ⟨rfl, rfl, rfl, rfl⟩
  · obtain ⟨u, rfl, rfl⟩ | ⟨hf, -⟩ | ⟨-, rfl⟩ | ⟨-, rfl⟩ := hostStep_next ho
    · exact .inr ⟨hc, rfl, rfl, u, rest, hh⟩
    · rw [State.setHost_fault, hs] at hf
      cases hf
    · exact .inl ⟨rfl, rfl, rfl, rfl⟩
    · exact .inl ⟨rfl, rfl, rfl, rfl⟩
  · exact .inl ⟨rfl, rfl, rfl, rfl⟩

/-- Settles O52 (R30): a change of a DRAW_COLORS byte by the cartridge is a CWrite to its row, and of
the host's operations only HReset reaches it. -/
theorem drawColorsChangesOnlyByWriteOrReset : Obligations.DrawColorsChangesOnlyByWriteOrReset := by
  refine ⟨fun i s t h => ⟨exec_read_window h (by decide), exec_read_window h (by decide)⟩,
    fun s t h hne => ?_⟩
  obtain ⟨a, ha, hne⟩ : ∃ a, (a = 0x14 ∨ a = 0x15) ∧ t.mem.read a ≠ s.mem.read a :=
    hne.elim (fun e => ⟨_, .inl rfl, e⟩) fun e => ⟨_, .inr rfl, e⟩
  obtain ⟨p, o, q, hc, ht, ho⟩ | ⟨p, -, -, rfl⟩ | ⟨p, -, -, rfl⟩ | ⟨hc, o, rest, hh, ho⟩ |
    ⟨-, -, rfl⟩ := step_next h
  · obtain ⟨row, hm, -, hl, hu, b, v, hb, rfl⟩ := cartStep_changes_window ho (by omega) hne
    obtain rfl := eq_drawColors_of_row_covers hm ha hl hu
    obtain rfl : b = 0x14#16 := BitVec.eq_of_toNat_eq hb
    exact .inl ⟨p, v, q, hc, ht⟩
  · exact absurd rfl hne
  · exact absurd rfl hne
  · obtain ⟨u, rfl⟩ | hr := hostStep_read_below_input ho (show a < 0x16 by omega)
    · exact .inr ⟨hc, u, rest, hh⟩
    · exact absurd hr hne
  · exact absurd rfl hne

/-- Settles O53 (R38, R49, 20_memory.md R67, R68, R71): in a callback only the cartridge moves, and it
changes the register window by a CWrite to a row it may write. -/
theorem inputRegistersConstantInCallback : Obligations.InputRegistersConstantInCallback := by
  intro s t p hc h
  cases ht : p.turn with
  | acts o q =>
    rw [step_cart hc ht] at h
    refine ⟨fun a => cartStep_read_input_or_reserved h, fun ⟨a, ha, hne⟩ => ?_⟩
    obtain ⟨row, -, -, -, -, b, v, -, rfl⟩ := cartStep_changes_window h ha hne
    exact ⟨b, row.width, v, q, rfl⟩
  | computes =>
    rw [step_compute hc ht] at h
    cases h
    exact ⟨fun _ _ => rfl, fun ⟨_, _, hne⟩ => absurd rfl hne⟩
  | returns =>
    rw [step_return hc ht] at h
    cases h
    exact ⟨fun _ _ => rfl, fun ⟨_, _, hne⟩ => absurd rfl hne⟩

/-- Settles O58 (R24, R25): writing and reading a row as bytes, then the rows' types. -/
theorem registersAreLittleEndianTypedFields : Obligations.RegistersAreLittleEndianTypedFields := by
  intro m
  refine ⟨fun row hm v b => ?written, by decide, fun row hm hx hy => ?unsigned,
    fun row hm hxy => ?signed⟩
  case written =>
    have outside := m.read_writeReg_outside (r := row.reg) (b := b) v
    have same := m.readReg_writeReg_same row.reg v
    rw [rowOf_reg hm] at outside
    rw [Memory.readReg, rowOf_reg hm] at same
    exact ⟨outside, same⟩
  case unsigned => rw [m.regValue_of_unsigned hx hy, Memory.readReg, rowOf_reg hm]
  case signed => rw [m.regValue_of_mouse hxy, rowOf_reg hm, m.toInt_readLE_two]

end Sys2Proof.Proofs
end

section
/-! PROOFS. 20_memory.md: the cartridge's accesses (R60, R61, R66 to R70), and what a drawing command
leaves in memory (R71, 40_pixel_pipeline.md R132, R133). -/

namespace Sys2Proof.Machine

open Sys2Proof Sys2Proof.Claims

/-! ### The rows of the statements are those of the register table (R67, R68) -/

theorem bytesOf_pos (n : Width) : 1 ≤ bytesOf n := by cases n <;> decide

theorem bytesOf_le (n : Width) : bytesOf n ≤ 4 := by cases n <;> decide

theorem bytesOf_injective : Function.Injective bytesOf := by
  intro m n h
  cases m <;> cases n <;> simp [bytesOf] at h ⊢

theorem map_regTable_eq_registerRows :
    regTable.map (fun row => (row.address, bytesOf row.width)) = registerRows := by decide

theorem findRow_isSome_iff {a : Nat} {n : Width} :
    (∃ row, findRow a n = some row) ↔ (a, bytesOf n) ∈ registerRows := by
  rw [← map_regTable_eq_registerRows, List.mem_map]
  constructor
  · rintro ⟨row, h⟩
    obtain ⟨hm, rfl, rfl⟩ := findRow_some h
    exact ⟨row, hm, rfl⟩
  · rintro ⟨row, hm, he⟩
    obtain ⟨rfl, hn⟩ := Prod.mk.inj he
    obtain rfl := bytesOf_injective hn
    exact Option.isSome_iff_exists.1 (List.find?_isSome.2 ⟨row, hm, by simp⟩)

theorem findRow_eq_none {a : Nat} {n : Width} (h : (a, bytesOf n) ∉ registerRows) :
    findRow a n = none := by
  rw [← findRow_isSome_iff, not_exists] at h
  exact Option.eq_none_iff_forall_ne_some.2 h

/-- The rows the cartridge may not write are the host's. -/
theorem readOnly_iff_mem_hostRows {a : Nat} {n : Width} {row : RegRow}
    (h : findRow a n = some row) : row.rights = .readOnly ↔ (a, bytesOf n) ∈ hostRows := by
  have rights : ∀ r ∈ regTable,
      (r.rights = .readOnly ↔ (r.address, bytesOf r.width) ∈ hostRows) := by decide
  obtain ⟨hm, rfl, rfl⟩ := findRow_some h
  exact rights row hm

theorem hostRows_subset_registerRows : hostRows ⊆ registerRows := by decide

/-! ### The verdicts of the port's decoder in an unfaulted block (R70) -/

theorem portVerdict_past_end {a : Nat} {n : Width} (h : 0xFFFF < a + bytesOf n - 1) (k : Access) :
    portVerdict false a n k = .raises .addrRange := by
  simp [portVerdict, h]

theorem portVerdict_off_rows {a : Nat} {n : Width} (ha : a ≤ 0x9F)
    (h : (a, bytesOf n) ∉ registerRows) (k : Access) :
    portVerdict false a n k = .raises .badAccess := by
  have hn := bytesOf_le n
  simp [portVerdict, show ¬ 0xFFFF < a + bytesOf n - 1 by omega, ha, findRow_eq_none h]

theorem portVerdict_row {a : Nat} {n : Width} {row : RegRow} (h : findRow a n = some row)
    (k : Access) :
    portVerdict false a n k =
      if k = .write ∧ row.rights = .readOnly then .dropped else .performed := by
  have hb : a + bytesOf n ≤ 0x21 := by
    obtain ⟨hm, rfl, rfl⟩ := findRow_some h
    rw [← rowOf_reg hm]
    exact (rowOf_bounds _).2
  have hn := bytesOf_pos n
  simp [portVerdict, show ¬ 0xFFFF < a + bytesOf n - 1 by omega, show a ≤ 0x9F by omega, h]

theorem portVerdict_above_window {a : Nat} {n : Width} (ha : 0xA0 ≤ a)
    (h : a + bytesOf n ≤ 0x10000) (k : Access) : portVerdict false a n k = .performed := by
  simp [portVerdict, show ¬ 0xFFFF < a + bytesOf n - 1 by omega, show ¬ a ≤ 0x9F by omega]

theorem portVerdict_read_performed {a : Nat} {n : Width} (h : a + bytesOf n ≤ 0x10000)
    (ha : 0xA0 ≤ a ∨ (a, bytesOf n) ∈ registerRows) :
    portVerdict false a n .read = .performed := by
  obtain ha | hr := ha
  · exact portVerdict_above_window ha h _
  · obtain ⟨row, hrow⟩ := findRow_isSome_iff.2 hr
    rw [portVerdict_row hrow, if_neg nofun]

theorem portVerdict_write_performed {a : Nat} {n : Width} (h : a + bytesOf n ≤ 0x10000)
    (ha : 0xA0 ≤ a ∨ ((a, bytesOf n) ∈ registerRows ∧ (a, bytesOf n) ∉ hostRows)) :
    portVerdict false a n .write = .performed := by
  obtain ha | ⟨hr, hh⟩ := ha
  · exact portVerdict_above_window ha h _
  · obtain ⟨row, hrow⟩ := findRow_isSome_iff.2 hr
    rw [portVerdict_row hrow, if_neg fun hw => hh ((readOnly_iff_mem_hostRows hrow).1 hw.2)]

theorem portVerdict_write_dropped {a : Nat} {n : Width} (h : (a, bytesOf n) ∈ hostRows) :
    portVerdict false a n .write = .dropped := by
  obtain ⟨row, hrow⟩ := findRow_isSome_iff.2 (hostRows_subset_registerRows h)
  rw [portVerdict_row hrow, if_pos ⟨rfl, (readOnly_iff_mem_hostRows hrow).2 h⟩]

/-! ### An access by its verdict (R66 to R68) -/

section Access

variable {s : State} {a : BitVec 16} {n : Width} (hf : s.fault.set = false)
include hf

theorem cartRead_performed (h : portVerdict false a.toNat n .read = .performed) :
    cartRead a n s =
      .next (s.answerCart (.data (BitVec.ofNat 32 (s.mem.readLE a.toNat (bytesOf n))))) := by
  simp only [cartRead, hf, h]

theorem cartWrite_performed (h : portVerdict false a.toNat n .write = .performed) (v : Word) :
    cartWrite a n v s =
      .next (s.setMem (s.mem.writeLE a.toNat (bytesOf n) v.toNat)).finish := by
  simp only [cartWrite, hf, h]

theorem cartWrite_dropped (h : portVerdict false a.toNat n .write = .dropped) (v : Word) :
    cartWrite a n v s = .next s.finish := by
  simp only [cartWrite, hf, h]

/-- A verdict that does not ask for the kind of the access faults the read and the write alike. -/
theorem cartAccess_raises {f : FaultName}
    (h : ∀ k, portVerdict false a.toNat n k = .raises f) (v : Word) :
    cartRead a n s = .next (faulted s (faultNumber f) (a.setWidth 32)) ∧
      cartWrite a n v s = .next (faulted s (faultNumber f) (a.setWidth 32)) := by
  simp only [cartRead, cartWrite, hf, h, raise_eq_faulted hf, and_self]

end Access

/-- The value a CRead answers: a little-endian read of at most four bytes fits the port's word. -/
theorem Memory.toNat_readLE_word (m : Memory) (a : Nat) (n : Width) :
    (BitVec.ofNat 32 (m.readLE a (bytesOf n))).toNat = m.readLE a (bytesOf n) := by
  rw [BitVec.toNat_ofNat]
  refine Nat.mod_eq_of_lt ((m.readLE_lt a (bytesOf n)).trans_le ?_)
  calc 256 ^ bytesOf n ≤ 256 ^ 4 := Nat.pow_le_pow_right (by decide) (bytesOf_le n)
    _ = 2 ^ 32 := by decide

/-! ### A drawing command is a list of plots -/

theorem State.plotAll_append (s : State) (ps qs : List (Int × Int × Role)) :
    s.plotAll (ps ++ qs) = (s.plotAll ps).plotAll qs :=
  List.foldl_append

/-- Phase 2 of a blit is a list of plots: the roles are those its reads meet on the way
(41_blit.md R148). -/
theorem Blit.foldl_drawPixel_eq_plotAll (b : Blit) (l : List (Nat × Nat)) (s : State) :
    ∃ ps, l.foldl b.drawPixel s = s.plotAll ps := by
  induction l generalizing s with
  | nil => exact ⟨[], rfl⟩
  | cons p l ih =>
    obtain ⟨ps, h⟩ := ih (b.drawPixel s p)
    exact ⟨(_, _, _) :: ps, h⟩

/-- Phase 2 of TEXT is a list of plots, those of the glyphs it reads on the way (44_text.md R192). -/
theorem textLoop_eq_plotAll (x : Int) (n ptr : Nat) (cx cy : Int) (s : State) :
    ∃ ps, textLoop x n ptr cx cy s = s.plotAll ps := by
  induction n generalizing ptr cx cy s with
  | zero => exact ⟨[], rfl⟩
  | succ n ih =>
    unfold textLoop
    dsimp only
    split
    · exact ih ..
    · split
      · obtain ⟨ps, h⟩ :=
          ih (ptr + 1) (cx + 8) cy (s.plotAll (glyphPlots s.cfg (s.srcByte ptr) cx cy))
        exact ⟨_ ++ ps, h.trans (s.plotAll_append _ ps).symm⟩
      · exact ih ..

theorem Blit.run_mem (b : Blit) (s : State) : ∃ ps, (b.run s).mem = (s.plotAll ps).mem := by
  unfold Blit.run
  split
  · exact ⟨[], s.raise_mem _ _⟩
  · obtain ⟨ps, h⟩ := b.foldl_drawPixel_eq_plotAll b.sampled s
    exact ⟨ps, by rw [h, State.finish_mem]⟩

/-- The memory after a drawing command is that after a list of plots, the empty one where it faults. -/
theorem exec_drawing_mem {i : Instr} {s t : State} (hi : isDrawing i = true)
    (h : exec i s = .next t) : ∃ ps, t.mem = (s.plotAll ps).mem := by
  have blit : ∀ b : Blit, s.accept b.run = .next t → ∃ ps, t.mem = (s.plotAll ps).mem := by
    intro b hb
    obtain ⟨-, rfl⟩ := State.accept_next.1 hb
    exact b.run_mem s
  have plots : ∀ ps, s.accept (fun u => (u.plotAll ps).finish) = .next t →
      ∃ ps, t.mem = (s.plotAll ps).mem := by
    intro ps hp
    obtain ⟨-, rfl⟩ := State.accept_next.1 hp
    exact ⟨ps, rfl⟩
  cases i with
  | blit | blitSub => exact blit _ h
  | line | hline | vline | oval | rect => exact plots _ h
  | text ptr len x y =>
    simp only [exec, execText] at h
    obtain ⟨-, rfl⟩ := State.accept_next.1 h
    split
    · exact ⟨[], s.raise_mem _ _⟩
    · obtain ⟨ps, hps⟩ := textLoop_eq_plotAll x len ptr x y s
      exact ⟨ps, by rw [hps, State.finish_mem]⟩
  | tone | diskr | diskw | trace => cases hi

/-- A pixel under a list of plots keeps its slot or takes the slot of a role that is not transparent
(40_pixel_pipeline.md R133). -/
theorem State.plotAll_fb_cases (s : State) (ps : List (Int × Int × Role)) {qx qy : Int}
    (hq : onScreen qx qy = true) :
    (s.plotAll ps).fb qx qy = s.fb qx qy ∨ ∃ k, s.remap k = some ((s.plotAll ps).fb qx qy) := by
  induction ps generalizing s with
  | nil => exact .inl rfl
  | cons p ps ih =>
    change ((s.plot p.1 p.2.1 p.2.2).plotAll ps).fb qx qy = s.fb qx qy ∨
      ∃ k, s.remap k = some (((s.plot p.1 p.2.1 p.2.2).plotAll ps).fb qx qy)
    have hr := (s.plot_agrees p.1 p.2.1 p.2.2).remap
    obtain hkept | ⟨k, hk⟩ := ih (s.plot p.1 p.2.1 p.2.2)
    · rw [hkept, s.plot_fb _ _ _ hq]
      split
      · cases hp : s.remap p.2.2 with
        | none => exact .inl rfl
        | some slot => exact .inr ⟨p.2.2, hp⟩
      · exact .inl rfl
    · exact .inr ⟨k, (hr k).symm.trans hk⟩

theorem valueOf_lt (k : Role) : valueOf k < 4 := by cases k <;> decide

/-- The slot of a role that is not transparent, by its nibble (10_state.md R32). -/
theorem toNat_of_remap_eq_some {s : State} {k : Role} {slot : BitVec 2}
    (h : s.remap k = some slot) :
    nibbleAt s (valueOf k) ≠ 0 ∧ slot.toNat = (nibbleAt s (valueOf k) - 1) % 4 := by
  rw [remap_eq] at h
  split at h
  · cases h
  · rename_i hn
    obtain rfl := Option.some.inj h
    exact ⟨hn, BitVec.toNat_ofNat _ 2⟩

end Sys2Proof.Machine

namespace Sys2Proof.Proofs

open Sys2Proof Sys2Proof.Machine Sys2Proof.Claims

/-- Settles O9 (R60, R61, R66 to R70): the access is performed, and byte k of a little-endian read is
the byte at a + k. -/
theorem cartReadAnswersBytes : Obligations.CartReadAnswersBytes := by
  intro s a n hf hend ha
  refine ⟨_, cartRead_performed hf (portVerdict_read_performed hend ha), ?_, fun k hk => ?_⟩
  · rw [Memory.toNat_readLE_word]
    exact s.mem.readLE_lt _ _
  · rw [Memory.toNat_readLE_word, ← byteOf_toNat, Memory.byteOf_readLE hk, State.readByte]

/-- Settles O10 (R60, R61, R66 to R70): the access is performed, and a little-endian store changes its
own bytes only. -/
theorem cartWriteStoresBytes : Obligations.CartWriteStoresBytes := by
  intro s a n v hf hend ha
  refine ⟨_, cartWrite_performed hf (portVerdict_write_performed hend ha) v, rfl, fun k hk => ?_,
    fun b hb => ?_⟩
  · rw [State.readByte, State.finish_mem, State.setMem_mem, Memory.read_writeLE,
      if_pos (by omega), Nat.add_sub_cancel_left, byteOf_toNat]
  · rw [State.readByte, State.finish_mem, State.setMem_mem, Memory.read_writeLE,
      if_neg (by omega), State.readByte]

/-- Settles O11 (R68, 70_reset_and_hazards.md R263): the decoder drops the write. -/
theorem cartWriteToHostRowDropped : Obligations.CartWriteToHostRowDropped :=
  fun _ _ _ v hf hr => cartWrite_dropped hf (portVerdict_write_dropped hr) v

/-- Settles O12 (R67, 60_exceptions.md R222): the decoder finds no row, for either kind of access. -/
theorem cartAccessOffTheRowsRaisesBadAccess : Obligations.CartAccessOffTheRowsRaisesBadAccess :=
  fun _ _ _ v hf ha hr => cartAccess_raises hf (portVerdict_off_rows ha hr) v

/-- Settles O13 (R66, 60_exceptions.md R222): the decoder checks the end of the access first, for either
kind of access. -/
theorem cartAccessPastEndRaisesAddrRange : Obligations.CartAccessPastEndRaisesAddrRange :=
  fun _ _ _ v hf hend => cartAccess_raises hf (portVerdict_past_end hend) v

/-- Settles O54 (R71, 40_pixel_pipeline.md R132, R133): a drawing command is a list of plots, and each
plot keeps a pixel or gives it the slot of a role that is not transparent. -/
theorem drawnPixelsTakeRoleSlots : Obligations.DrawnPixelsTakeRoleSlots := by
  intro i s t hi h
  obtain ⟨ps, hm⟩ := exec_drawing_mem hi h
  refine ⟨fun a ha => ?outside, fun px py hx hy => ?pixel⟩
  case outside =>
    rw [State.readByte, hm]
    exact s.plotAll_agrees ps a ha
  case pixel =>
    have hfb : t.fb px py = (s.plotAll ps).fb px py := by rw [State.fb, hm, State.fb]
    rw [pixelAt_eq, pixelAt_eq, hfb]
    obtain hkept | ⟨k, hk⟩ := s.plotAll_fb_cases ps (onScreen_natCast hx hy)
    · exact .inl (congrArg _ hkept)
    · obtain ⟨hn, hslot⟩ := toNat_of_remap_eq_some hk
      exact .inr ⟨valueOf k, valueOf_lt k, hn, hslot⟩

end Sys2Proof.Proofs
end

section
/-! PROOFS. 30_encoding.md: the serial form and its decoder (R92 to R96), the command words that
select nothing (R97, R98), the ignored flag bits (R99), and what a command answers (R90, R105). -/

namespace Sys2Proof

/-! ### A word and its operand (R94, R102) -/

theorem fitsUnsigned_iff {n : Nat} : fitsUnsigned n = true ↔ n < 2 ^ 32 := decide_eq_true_iff

theorem fitsSigned_iff {z : Int} : fitsSigned z = true ↔ -(2 ^ 31) ≤ z ∧ z < 2 ^ 31 := by
  simp [fitsSigned]

@[simp] theorem fitsUnsigned_unsignedOf (v : Word) : fitsUnsigned (unsignedOf v) = true :=
  fitsUnsigned_iff.2 v.isLt

@[simp] theorem fitsSigned_signedOf (v : Word) : fitsSigned (signedOf v) = true :=
  fitsSigned_iff.2 ⟨v.le_toInt, v.toInt_lt⟩

@[simp] theorem wordOfNat_unsignedOf (v : Word) : wordOfNat (unsignedOf v) = v := by
  simp [wordOfNat, unsignedOf]

@[simp] theorem wordOfInt_signedOf (v : Word) : wordOfInt (signedOf v) = v :=
  BitVec.ofInt_toInt

theorem unsignedOf_wordOfNat {n : Nat} (h : fitsUnsigned n = true) : unsignedOf (wordOfNat n) = n :=
  Nat.mod_eq_of_lt (fitsUnsigned_iff.1 h)

theorem signedOf_wordOfInt {z : Int} (h : fitsSigned z = true) : signedOf (wordOfInt z) = z := by
  obtain ⟨hl, hu⟩ := fitsSigned_iff.1 h
  exact BitVec.toInt_ofInt_eq_self (by decide) hl hu

/-! ### Words and their bytes (R93) -/

theorem bytesOfWord_append (b0 b1 b2 b3 : Byte) :
    bytesOfWord (b3 ++ b2 ++ b1 ++ b0) = [b0, b1, b2, b3] := by
  have h0 : (b3 ++ b2 ++ b1 ++ b0).extractLsb' 0 8 = b0 := BitVec.extractLsb'_append_eq_right
  have h1 : (b3 ++ b2 ++ b1 ++ b0).extractLsb' 8 8 = b1 := by
    rw [BitVec.extractLsb'_append_eq_of_le (by decide)]
    exact BitVec.extractLsb'_append_eq_right
  have h2 : (b3 ++ b2 ++ b1 ++ b0).extractLsb' 16 8 = b2 := by
    iterate 2 rw [BitVec.extractLsb'_append_eq_of_le (by decide)]
    exact BitVec.extractLsb'_append_eq_right
  have h3 : (b3 ++ b2 ++ b1 ++ b0).extractLsb' 24 8 = b3 := by
    iterate 2 rw [BitVec.extractLsb'_append_eq_of_le (by decide)]
    exact BitVec.extractLsb'_append_eq_left
  rw [bytesOfWord, h0, h1, h2, h3]

/-- `takeWord` reads exactly the four bytes of a word. -/
theorem takeWord_eq_some_iff {bs rest : List Byte} {v : Word} :
    takeWord bs = some (v, rest) ↔ bs = bytesOfWord v ++ rest := by
  constructor
  · intro h
    unfold takeWord at h
    split at h
    · obtain ⟨rfl, rfl⟩ := Prod.mk.inj (Option.some.inj h)
      rw [bytesOfWord_append]
      rfl
    · cases h
  · rintro rfl
    have join : v.extractLsb' 24 8 ++ v.extractLsb' 16 8 ++ v.extractLsb' 8 8 ++
        v.extractLsb' 0 8 = v := by
      iterate 3 rw [BitVec.extractLsb'_append_extractLsb'_eq_extractLsb' (by decide)]
      exact BitVec.extractLsb'_eq_self
    exact congrArg (fun u => some (u, rest)) join

/-- `takeWords n` reads exactly the bytes of `n` words. -/
theorem takeWords_eq_some_iff {n : Nat} {bs rest : List Byte} {ws : List Word} :
    takeWords n bs = some (ws, rest) ↔ ws.length = n ∧ bs = ws.flatMap bytesOfWord ++ rest := by
  induction n generalizing bs ws with
  | zero =>
    rw [List.length_eq_zero_iff]
    constructor
    · intro h
      obtain ⟨rfl, rfl⟩ := Prod.mk.inj (Option.some.inj h)
      exact ⟨rfl, rfl⟩
    · rintro ⟨rfl, rfl⟩
      rfl
  | succ n ih =>
    constructor
    · intro h
      unfold takeWords at h
      split at h
      · cases h
      · next v tl hv =>
        split at h
        · cases h
        · next vs tl' hvs =>
          obtain ⟨rfl, rfl⟩ := Prod.mk.inj (Option.some.inj h)
          obtain ⟨hl, rfl⟩ := ih.1 hvs
          refine ⟨congrArg _ hl, ?_⟩
          rw [takeWord_eq_some_iff.1 hv, List.flatMap_cons, List.append_assoc]
    · rintro ⟨hl, rfl⟩
      obtain ⟨v, vs, rfl⟩ := List.exists_cons_of_length_eq_add_one hl
      have hv : takeWord ((v :: vs).flatMap bytesOfWord ++ rest) =
          some (v, vs.flatMap bytesOfWord ++ rest) := by
        rw [takeWord_eq_some_iff, List.flatMap_cons, List.append_assoc]
      have hvs : takeWords n (vs.flatMap bytesOfWord ++ rest) = some (vs, rest) :=
        ih.2 ⟨Nat.succ.inj hl, rfl⟩
      simp only [takeWords, hv, hvs]

/-! ### The command words that select a command (R96 to R98) -/

theorem operandCount_eq_none_iff {cmd : Word} :
    operandCount cmd = none ↔ cmd.toNat = 0 ∨ 12 < cmd.toNat := by
  unfold operandCount
  split
  all_goals
    simp only [reduceCtorEq, imp_false, false_iff, true_iff] at *
    omega

/-- The decoder selects a command at the words that count operands. -/
theorem decodeLatches_eq_none_iff {cmd : Word} {o : Operands} :
    decodeLatches cmd o = none ↔ cmd.toNat = 0 ∨ 12 < cmd.toNat := by
  rw [← operandCount_eq_none_iff]
  unfold decodeLatches operandCount
  split <;> simp [*]

theorem operandCount_le_nine {cmd : Word} {n : Nat} (h : operandCount cmd = some n) : n ≤ 9 := by
  unfold operandCount at h
  split at h <;> cases h <;> decide

/-! ### A command and its words (R92, R96) -/

/-- OP[0] to OP[8] as a list. -/
def Operands.words (o : Operands) : List Word :=
  [o.op0, o.op1, o.op2, o.op3, o.op4, o.op5, o.op6, o.op7, o.op8]

theorem Operands.take_words_operandsOf {ws : List Word} (h : ws.length ≤ 9) :
    (operandsOf ws).words.take ws.length = ws := by
  have hw : (operandsOf ws).words = (List.range 9).map (ws.getD · 0) := rfl
  apply List.ext_getElem
  · simpa [hw] using h
  · intro k h1 h2
    simp [hw, h2]

theorem encodeWords_shape : ∀ i : Instr, Laws.EncodeShape.Statement i
  | .blit .. => Laws.EncodeShape.blit ..
  | .blitSub .. => Laws.EncodeShape.blitSub ..
  | .line .. => Laws.EncodeShape.line ..
  | .hline .. => Laws.EncodeShape.hline ..
  | .vline .. => Laws.EncodeShape.vline ..
  | .oval .. => Laws.EncodeShape.oval ..
  | .rect .. => Laws.EncodeShape.rect ..
  | .text .. => Laws.EncodeShape.text ..
  | .tone .. => Laws.EncodeShape.tone ..
  | .diskr .. => Laws.EncodeShape.diskr ..
  | .diskw .. => Laws.EncodeShape.diskw ..
  | .trace .. => Laws.EncodeShape.trace ..

/-- The latches that hold the operand words of a well-formed command decode to it. -/
theorem decodeLatches_of_encodeWords {i : Instr} (hw : i.wellFormed = true) {cmd : Word}
    {ops : List Word} (h : encodeWords i = cmd :: ops) :
    decodeLatches cmd (operandsOf ops) = some i := by
  cases i
  all_goals
    obtain ⟨rfl, rfl⟩ := List.cons.inj h
    simp only [Instr.wellFormed, Bool.and_eq_true] at hw
    simp [decodeLatches, operandsOf, unsignedOf_wordOfNat, signedOf_wordOfInt, hw]

/-- What the latches decode to is well formed: each operand is the reading of a word (R94). -/
theorem wellFormed_of_decodeLatches {cmd : Word} {o : Operands} {i : Instr}
    (h : decodeLatches cmd o = some i) : i.wellFormed = true := by
  unfold decodeLatches at h
  split at h <;> cases h <;> simp [Instr.wellFormed]

/-- What the latches decode to has as its words the command word and the latches it counts. -/
theorem encodeWords_of_decodeLatches {cmd : Word} {o : Operands} {i : Instr} {n : Nat}
    (hn : operandCount cmd = some n) (h : decodeLatches cmd o = some i) :
    encodeWords i = cmd :: o.words.take n := by
  have word : ∀ {k : Nat}, cmd.toNat = k → cmd = BitVec.ofNat 32 k := by
    rintro k rfl
    simp
  unfold decodeLatches at h
  split at h <;> cases h <;> next hc =>
    obtain rfl := word hc
    cases hn
    simp [encodeWords, Operands.words]

/-- The decoder accepts the bytes of a command word and the operand words it counts. -/
theorem decodeBytes_eq_ok_iff {bs rest : List Byte} {i : Instr} :
    decodeBytes bs = .ok i rest ↔
      ∃ cmd ops, operandCount cmd = some ops.length ∧ decodeLatches cmd (operandsOf ops) = some i ∧
        bs = (cmd :: ops).flatMap bytesOfWord ++ rest := by
  constructor
  · intro h
    unfold decodeBytes at h
    split at h
    · cases h
    next cmd tl hcmd =>
    split at h
    · cases h
    next n hn =>
    split at h
    · cases h
    next ops tl' hops =>
    split at h
    · cases h
    next i' hi =>
    obtain ⟨rfl, rfl⟩ := Decoded.ok.inj h
    obtain ⟨rfl, rfl⟩ := takeWords_eq_some_iff.1 hops
    refine ⟨cmd, ops, hn, hi, ?_⟩
    rw [takeWord_eq_some_iff.1 hcmd, List.flatMap_cons, List.append_assoc]
  · rintro ⟨cmd, ops, hn, hi, rfl⟩
    have hcmd : takeWord ((cmd :: ops).flatMap bytesOfWord ++ rest) =
        some (cmd, ops.flatMap bytesOfWord ++ rest) := by
      rw [takeWord_eq_some_iff, List.flatMap_cons, List.append_assoc]
    have hops : takeWords ops.length (ops.flatMap bytesOfWord ++ rest) = some (ops, rest) :=
      takeWords_eq_some_iff.2 ⟨rfl, rfl⟩
    simp only [decodeBytes, hcmd, hn, hops, hi]

end Sys2Proof

namespace Sys2Proof.Machine

open Sys2Proof Sys2Proof.Claims

/-! ### The issue of a command (R90, R97, R98) -/

@[simp] theorem State.latch_fault (s : State) (cmd : Word) (ops : Operands) :
    (s.latch cmd ops).fault = s.fault := by rw [State.latch_eq, State.setLatches_fault]

/-- With a reserved command word no operand is latched. -/
theorem State.latch_of_reserved {cmd : Word} (h : operandCount cmd = none) (s : State)
    (ops : Operands) : s.latch cmd ops = s.setLatches cmd s.op := by
  simp only [State.latch, h]

section Issue

variable {s : State} {cmd : Word} {ops : Operands} (hf : s.fault.set = false)
include hf

theorem issueCommand_of_decodes {i : Instr}
    (h : decodeLatches cmd (s.latch cmd ops).op = some i) :
    issueCommand cmd ops s = exec i (s.latch cmd ops) := by
  simp [issueCommand, hf, h]

theorem issueCommand_of_reserved (h : cmd.toNat = 0 ∨ 12 < cmd.toNat) :
    issueCommand cmd ops s = .next (faulted (s.setLatches cmd s.op) 1#8 cmd) := by
  have raised := raise_eq_faulted (s := s.setLatches cmd s.op) hf .badCommand cmd
  simp [issueCommand, hf, decodeLatches_eq_none_iff.2 h,
    State.latch_of_reserved (operandCount_eq_none_iff.2 h), raised, faultNumber]

end Issue

/-! ### The flag bits of a blit (R99) -/

theorem getLsbD_eq_of_mod_sixteen {f g : Word} (h : f.toNat % 16 = g.toNat % 16) {k : Nat}
    (hk : k < 4) : f.getLsbD k = g.getLsbD k := by
  have bit := congrArg (·.testBit k) h
  simpa only [show 16 = 2 ^ 4 from rfl, Nat.testBit_mod_two_pow, hk, decide_true, Bool.true_and,
    BitVec.testBit_toNat] using bit

/-- The decoded flags are those of the low four bits (41_blit.md R141). -/
theorem blitMode_eq_of_mod_sixteen {f g : Word} (h : f.toNat % 16 = g.toNat % 16) (xinv : Bool) :
    blitMode xinv f = blitMode xinv g := by
  have bit {k : Nat} (hk : k < 4) := getLsbD_eq_of_mod_sixteen h hk
  simp only [blitMode, bit (show 0 < 4 by decide), bit (show 1 < 4 by decide),
    bit (show 2 < 4 by decide), bit (show 3 < 4 by decide)]

theorem blitSubOf_eq_of_mod_sixteen {f g : Word} (h : f.toNat % 16 = g.toNat % 16) (c : Config)
    (ptr : Nat) (x y : Int) (w ht srcX srcY stride : Nat) :
    blitSubOf c ptr x y w ht srcX srcY stride f = blitSubOf c ptr x y w ht srcX srcY stride g := by
  simp only [blitSubOf, blitMode_eq_of_mod_sixteen h]

/-! ### What a command that completes answers (R90, R105) -/

theorem Blit.run_answers_done {b : Blit} {s : State} (h : (b.run s).fault.set = false) :
    (b.run s).cpAnswer = .done := by
  cases hs : b.sourceFault with
  | none => rw [b.run_of_inside hs]; rfl
  | some a => rw [b.run_of_above hs, State.raise_set] at h; cases h

/-- Every command but DISKR and DISKW answers `done` with no result. -/
theorem exec_answers_done {i : Instr} {s t : State} (h : exec i s = .next t)
    (ht : t.fault.set = false) (hi : ∀ ptr count, i ≠ .diskr ptr count ∧ i ≠ .diskw ptr count) :
    t.cpAnswer = .done := by
  cases i with
  | blit | blitSub =>
    simp only [exec, execBlit, execBlitSub] at h
    obtain ⟨-, rfl⟩ := State.accept_next.1 h
    exact Blit.run_answers_done ht
  | line | hline | vline | oval | rect | tone =>
    simp only [exec, execLine, execHline, execVline, execOval, execRect, execTone] at h
    obtain ⟨-, rfl⟩ := State.accept_next.1 h
    rfl
  | text | trace =>
    simp only [exec, execText, execTrace] at h
    obtain ⟨-, rfl⟩ := State.accept_next.1 h
    split at ht
    · rw [State.raise_set] at ht
      cases ht
    · rfl
  | diskr ptr count => exact absurd rfl (hi ptr count).1
  | diskw ptr count => exact absurd rfl (hi ptr count).2

/-- A result no larger than a well-formed operand fits the answer's word. -/
theorem toNat_ofNat_of_le_fitsUnsigned {r count : Nat} (hr : r ≤ count)
    (hc : fitsUnsigned count = true) : (BitVec.ofNat 32 r).toNat = r :=
  Nat.mod_eq_of_lt (hr.trans_lt (fitsUnsigned_iff.1 hc))

theorem dstOutside_eq_false_iff {ptr r : Nat} :
    dstOutside ptr r = false ↔ r = 0 ∨ 0xA0 ≤ ptr ∧ ptr + r ≤ 0x10000 := by
  simp only [dstOutside, Bool.and_eq_false_iff, Bool.or_eq_false_iff, decide_eq_false_iff_not]
  omega

/-- A DISKR that does not fault copied bytes of the blob, inside 0x00A0 to 0xFFFF
(45_host_calls.md R205). -/
theorem exec_diskr_next {ptr count : Nat} {s t : State} (h : exec (.diskr ptr count) s = .next t)
    (ht : t.fault.set = false) :
    (diskReadCount s count = 0 ∨ 0xA0 ≤ ptr ∧ ptr + diskReadCount s count ≤ 0x10000) ∧
      t = (s.setMem (s.mem.writeBytes ptr (s.disk.take (diskReadCount s count)))).finishWith
        (diskReadCount s count) := by
  simp only [exec, execDiskr] at h
  obtain ⟨-, rfl⟩ := State.accept_next.1 h
  split at ht
  · rw [State.raise_set] at ht
    cases ht
  · next hd =>
    rw [if_neg hd]
    exact ⟨dstOutside_eq_false_iff.1 (Bool.eq_false_iff.2 hd), rfl⟩

/-- A DISKW that does not fault put source bytes in the place of the blob
(45_host_calls.md R206). -/
theorem exec_diskw_next {ptr count : Nat} {s t : State} (h : exec (.diskw ptr count) s = .next t)
    (ht : t.fault.set = false) :
    t = (s.setDisk (s.srcBytes ptr (diskWriteCount s count))).finishWith
      (diskWriteCount s count) := by
  simp only [exec, execDiskw] at h
  obtain ⟨-, rfl⟩ := State.accept_next.1 h
  cases hs : stringFault ptr (diskWriteCount s count) with
  | none => rfl
  | some a => simp only [hs, State.raise_set] at ht; cases ht

end Sys2Proof.Machine

namespace Sys2Proof.Proofs

open Sys2Proof Sys2Proof.Machine Sys2Proof.Claims

/-- Settles O2 (R92 to R94, R96): the bytes split into the command's words, and the latches that
hold them decode to the command. -/
theorem decodeOfEncode : Obligations.DecodeOfEncode := by
  intro i rest hw
  obtain ⟨cmd, ops, he, hn⟩ := encodeWords_shape i
  exact decodeBytes_eq_ok_iff.2
    ⟨cmd, ops, hn, decodeLatches_of_encodeWords hw he, by rw [encode, he]⟩

/-- Settles O3 (R92 to R94, R96): an accepted string is the bytes of a command word and the operand
words it counts, and those are the words of the answer. -/
theorem encodeOfDecode : Obligations.EncodeOfDecode := by
  intro bs rest i h
  obtain ⟨cmd, ops, hn, hi, rfl⟩ := decodeBytes_eq_ok_iff.1 h
  have he : encodeWords i = cmd :: ops := by
    rw [encodeWords_of_decodeLatches hn hi,
      Operands.take_words_operandsOf (operandCount_le_nine hn)]
  exact ⟨wellFormed_of_decodeLatches hi, by rw [encode, he]⟩

/-- Settles O4 (R96 to R98): both selectors answer none at the same words. -/
theorem reservedWordsSelectNothing : Obligations.ReservedWordsSelectNothing :=
  fun _ _ => ⟨decodeLatches_eq_none_iff, operandCount_eq_none_iff⟩

/-- Settles O1 (R92 to R96, R98): the decoder is evaluated on each of the written-out forms. -/
theorem serialWordsDecode : Obligations.SerialWordsDecode := by
  unfold Obligations.SerialWordsDecode
  decide

/-- Settles O8 (R97, R98, 60_exceptions.md R222): the decoder selects nothing, so only CMD is
latched and BadCommand is taken. -/
theorem reservedWordRaisesBadCommand : Obligations.ReservedWordRaisesBadCommand := by
  intro s cmd ops p q hc ht hf hcmd
  rw [step_cart hc ht]
  exact issueCommand_of_reserved hf hcmd

/-- Settles O5 (R90, 20_memory.md R76): the cartridge's turn is the issue, and the issue runs what
the latches decode to. -/
theorem stepRunsDecodedCommand : Obligations.StepRunsDecodedCommand := by
  intro s cmd ops p q i hc ht hf hi
  rw [step_cart hc ht]
  exact issueCommand_of_decodes (s := s.setCallback (some q)) hf hi

/-- Settles O29 (R99): a blit uses its flags through `blitMode` only. -/
theorem blitReservedFlagsAreIgnored : Obligations.BlitReservedFlagsAreIgnored := by
  intro s ptr w h srcX srcY stride x y f g hfg
  have same := blitSubOf_eq_of_mod_sixteen hfg s.cfg ptr x y w h
  constructor
  · simp only [exec, execBlit, blitOf, same]
  · simp only [exec, execBlitSub, same]

/-- Settles O22 (R105, 45_host_calls.md R205, R206): the results fit the answer's word because
`count` does, and the bytes are those of the one store DISKR makes, or of the blob DISKW leaves. -/
theorem commandsAnswerTheirResult : Obligations.CommandsAnswerTheirResult := by
  intro i s t hw h ht
  refine ⟨?diskr, ?diskw, exec_answers_done h ht⟩
  case diskr =>
    rintro ptr count rfl
    obtain ⟨hr, rfl⟩ := exec_diskr_next h ht
    have hcount : fitsUnsigned count = true := (Bool.and_eq_true_iff.1 hw).2
    have hle : diskReadCount s count ≤ count := Nat.min_le_left _ _
    have hlen : (s.disk.take (diskReadCount s count)).length = diskReadCount s count :=
      List.length_take_of_le (Nat.min_le_right _ _)
    refine ⟨_, rfl, ?_⟩
    rw [toNat_ofNat_of_le_fitsUnsigned hle hcount]
    refine ⟨hle, rfl, fun k hk => ?_, fun a ha => ?_⟩
    · rw [State.readByte, State.finishWith_mem, State.setMem_mem, Memory.read_writeBytes, hlen,
        if_pos (by omega), Nat.add_sub_cancel_left, List.getD_eq_getElem?_getD,
        List.getElem?_take_of_lt hk, List.getD_eq_getElem?_getD]
      rfl
    · rw [State.readByte, State.finishWith_mem, State.setMem_mem, Memory.read_writeBytes, hlen,
        if_neg (by omega), State.readByte]
  case diskw =>
    rintro ptr count rfl
    obtain rfl := exec_diskw_next h ht
    have hcount : fitsUnsigned count = true := (Bool.and_eq_true_iff.1 hw).2
    have hle : diskWriteCount s count ≤ count := Nat.min_le_left _ _
    refine ⟨_, rfl, ?_⟩
    rw [toNat_ofNat_of_le_fitsUnsigned hle hcount]
    exact ⟨hle, (Memory.readBytes_length _ _ _).symm⟩

end Sys2Proof.Proofs
end

section
/-! PROOFS. 40_pixel_pipeline.md: a command completes or takes one fault (R130), and the plots that
change nothing: those of a transparent role (R131) and those off the screen (R134). -/

namespace Sys2Proof.Machine

open Sys2Proof Sys2Proof.Claims

/-! ### Plots that change nothing (R122, R124) -/

theorem visible_iff_onScreen {px py : Int} : visible (px, py) ↔ onScreen px py = true := by
  rw [onScreen_iff, visible]
  omega

theorem State.plot_of_transparent {s : State} {k : Role} (h : s.remap k = none) (px py : Int) :
    s.plot px py k = s := by
  simp only [State.plot, h]

theorem State.plot_of_not_visible (s : State) {px py : Int} (h : ¬ visible (px, py)) (k : Role) :
    s.plot px py k = s := by
  rw [visible_iff_onScreen] at h
  unfold State.plot
  split
  · rfl
  · exact if_neg h

theorem State.plotAll_of_plots_fixed {s : State} {ps : List (Int × Int × Role)}
    (h : ∀ p ∈ ps, s.plot p.1 p.2.1 p.2.2 = s) : s.plotAll ps = s := by
  induction ps with
  | nil => rfl
  | cons p ps ih =>
    obtain ⟨hp, hps⟩ := List.forall_mem_cons.1 h
    calc s.plotAll (p :: ps) = (s.plot p.1 p.2.1 p.2.2).plotAll ps := rfl
      _ = s.plotAll ps := by rw [hp]
      _ = s := ih hps

theorem State.plotAll_of_not_visible (s : State) {ps : List (Int × Int × Role)}
    (h : ∀ p ∈ ps, ¬ visible (p.1, p.2.1)) : s.plotAll ps = s :=
  State.plotAll_of_plots_fixed fun p hp => s.plot_of_not_visible (h p hp) p.2.2

/-- With DRAW_COLORS = 0x0000 every role is transparent (10_state.md R32). -/
theorem State.remap_of_drawColors_zero {s : State} (h0 : s.readByte 0x14 = 0#8)
    (h1 : s.readByte 0x15 = 0#8) (k : Role) : s.remap k = none := by
  have hn : nibbleAt s (valueOf k) = 0 := by simp [nibbleAt, h0, h1]
  rw [remap_eq, if_pos hn]

/-! ### Commands with nothing on the screen (R134) -/

/-- A point of the box that RECT and OVAL walk lies in the box and on the screen
(43_shapes.md R176, R178). -/
theorem mem_boxPixels {x y : Int} {w h : Nat} {p : Int × Int} (hp : p ∈ boxPixels x y w h) :
    inBox x y w h p.1 p.2 ∧ visible p := by
  simp only [boxPixels, List.mem_flatMap, List.mem_map, mem_clip] at hp
  obtain ⟨j, hj, i, hi, rfl⟩ := hp
  simp only [inBox, visible]
  omega

/-- A plot of a glyph lies in the glyph's 8 by 8 cell (44_text.md R193). -/
theorem mem_glyphPlots {c : Config} {code : Byte} {cx cy : Int} {p : Int × Int × Role}
    (hp : p ∈ glyphPlots c code cx cy) :
    ∃ row col : Nat, row < 8 ∧ col < 8 ∧ (p.1, p.2.1) = (cx + col, cy + row) := by
  simp only [glyphPlots, List.mem_flatMap, List.mem_map, List.mem_range] at hp
  obtain ⟨row, hrow, col, hcol, rfl⟩ := hp
  exact ⟨row, col, hrow, hcol, rfl⟩

section TextLoop

variable {s : State} {ptr : Nat} (x : Int) (n : Nat) (cx cy : Int)

theorem textLoop_of_newline (h : s.srcByte ptr = 0x0A#8) :
    textLoop x (n + 1) ptr cx cy s = textLoop x n (ptr + 1) x (cy + 8) s := by
  simp only [textLoop, h, if_true]

theorem textLoop_of_glyph (h : s.srcByte ptr ≠ 0x0A#8)
    (hg : hasGlyph s.cfg (s.srcByte ptr) = true) :
    textLoop x (n + 1) ptr cx cy s =
      textLoop x n (ptr + 1) (cx + 8) cy
        (s.plotAll (glyphPlots s.cfg (s.srcByte ptr) cx cy)) := by
  simp only [textLoop, h, hg, if_true, if_false]

theorem textLoop_of_no_glyph (h : s.srcByte ptr ≠ 0x0A#8)
    (hg : hasGlyph s.cfg (s.srcByte ptr) = false) :
    textLoop x (n + 1) ptr cx cy s = textLoop x n (ptr + 1) (cx + 8) cy s := by
  simp only [textLoop, h, hg, if_false, Bool.false_eq_true]

end TextLoop

/-- TEXT's loop from character `k` on, at the cursor the characters before `k` leave (44_text.md R191),
keeps the state when no glyph it meets is on the screen. -/
theorem textLoop_of_not_visible {s : State} {ptr : Nat} {x y : Int} (n k : Nat)
    (hv : ∀ j row col, j < k + n → row < 8 → col < 8 → glyphAt s ptr j →
      ¬ visible (cellPixel s ptr x y j row col)) :
    textLoop x n (ptr + k) (x + 8 * cellsBefore (charAt s ptr) k)
      (y + 8 * linesBefore (charAt s ptr) k) s = s := by
  induction n generalizing k with
  | zero => rfl
  | succ n ih =>
    have next := ih (k + 1) fun j row col hj => hv j row col (by omega)
    by_cases hnl : charAt s ptr k = 0x0A#8
    · rw [textLoop_of_newline (h := hnl)]
      simpa [cellsBefore, linesBefore, hnl, mul_add, add_assoc] using next
    · have advance : textLoop x n (ptr + k + 1) (x + 8 * cellsBefore (charAt s ptr) k + 8)
          (y + 8 * linesBefore (charAt s ptr) k) s = s := by
        simpa [cellsBefore, linesBefore, hnl, mul_add, add_assoc] using next
      cases hg : hasGlyph s.cfg (charAt s ptr k) with
      | false => rw [textLoop_of_no_glyph (h := hnl) (hg := hg), advance]
      | true =>
        have hglyph : glyphAt s ptr k := ⟨hnl, by simpa [hasGlyph] using hg⟩
        rw [textLoop_of_glyph (h := hnl) (hg := hg), s.plotAll_of_not_visible, advance]
        intro p hp
        obtain ⟨row, col, hrow, hcol, hpos⟩ := mem_glyphPlots hp
        rw [hpos]
        exact hv k row col (by omega) hrow hcol hglyph

section Empty

variable {s : State} (hf : s.fault.set = false)
include hf

theorem exec_blitSub_of_not_visible {x y : Int} {w h : Nat} {flags : Word}
    (hv : ∀ i j, i < w → j < h → ¬ visible (spriteTarget flags x y i j))
    (ptr srcX srcY stride : Nat) :
    exec (.blitSub ptr x y w h srcX srcY stride flags) s = .next s.finish := by
  have hnone : (blitSubOf s.cfg ptr x y w h srcX srcY stride flags).sampled = [] := by
    refine List.eq_nil_iff_forall_not_mem.2 fun ⟨i, j⟩ hm => ?_
    obtain ⟨hi, hj, ho⟩ := Blit.mem_sampled.1 hm
    exact hv i j hi hj (visible_iff_onScreen.2 ho)
  have hsource : (blitSubOf s.cfg ptr x y w h srcX srcY stride flags).sourceFault = none := by
    rw [Blit.sourceFault, hnone]
    rfl
  rw [exec_blitSub_of_clear hf, Blit.run_of_inside hsource, hnone]
  rfl

theorem exec_rect_of_not_visible {x y : Int} {w h : Nat}
    (hv : ∀ px py, inBox x y w h px py → ¬ visible (px, py)) :
    exec (.rect x y w h) s = .next s.finish := by
  rw [exec_rect_of_clear hf, s.plotAll_of_not_visible]
  intro q hq
  obtain ⟨p, hp, rfl⟩ := List.mem_map.1 hq
  exact hv _ _ (mem_boxPixels hp).1

theorem exec_oval_of_not_visible {x y : Int} {w h : Nat}
    (hv : ∀ px py, inBox x y w h px py → ¬ visible (px, py)) :
    exec (.oval x y w h) s = .next s.finish := by
  rw [exec_oval_of_clear hf, s.plotAll_of_not_visible]
  intro q hq
  obtain ⟨p, hp, rfl⟩ := List.mem_map.1 hq
  exact hv _ _ (mem_boxPixels (List.mem_of_mem_filter hp)).1

end Empty

end Sys2Proof.Machine

namespace Sys2Proof.Proofs

open Sys2Proof Sys2Proof.Machine Sys2Proof.Claims

/-- Settles O21 (R130, 60_exceptions.md R221, R222, R227): of what `exec_next` says a command can have
done, only taking a fault writes FAULT or the callback, and it does nothing else. -/
theorem commandFaultsArePrecise : Obligations.CommandFaultsArePrecise := by
  intro i s t h
  obtain ⟨hf, ⟨u, hd, rfl⟩ | ⟨e, rfl⟩ | ⟨ptr, r, -, -, rfl⟩ | ⟨d, r, -, rfl⟩ |
    ⟨f, info, hname, rfl⟩⟩ := exec_next h
  · rw [hd.eq]
    exact .inl ⟨rfl, rfl, nofun⟩
  · exact .inl ⟨rfl, rfl, nofun⟩
  · exact .inl ⟨rfl, rfl, nofun⟩
  · exact .inl ⟨rfl, rfl, nofun⟩
  · refine .inr ⟨faultNumber f, info, ?_, raise_eq_faulted hf f info⟩
    exact hname.imp (congrArg faultNumber) (congrArg faultNumber)

/-- Settles O55 (R131): a drawing command is a list of plots, each with a transparent role. -/
theorem transparentColorsDrawNothing : Obligations.TransparentColorsDrawNothing := by
  intro i s t hi h h0 h1
  obtain ⟨ps, hm⟩ := exec_drawing_mem hi h
  rw [hm, State.plotAll_of_plots_fixed fun p _ =>
    State.plot_of_transparent (State.remap_of_drawColors_zero h0 h1 p.2.2) _ _]

/-- Settles O59 (R134, 44_text.md R192): a blit samples no pixel, and every point the others plot is off
the screen. -/
theorem emptyFootprintsChangeNothing : Obligations.EmptyFootprintsChangeNothing := by
  intro s hf
  refine ⟨?blits, ?line, ?hline, ?vline, ?shapes, ?text⟩
  case blits =>
    intro ptr x y w h srcX srcY stride flags hv
    exact ⟨exec_blitSub_of_not_visible hf hv ptr srcX srcY stride,
      exec_blitSub_of_not_visible hf hv ptr 0 0 w⟩
  case line =>
    intro x1 y1 x2 y2 hv
    rw [exec_line_of_clear hf, s.plotAll_of_not_visible (List.forall_mem_map.2 hv)]
    rfl
  case hline =>
    intro x y len hv
    rw [exec_hline_of_clear hf, s.plotAll_of_not_visible
      (List.forall_mem_map.2 fun k hk => hv k (mem_clip.1 hk).1)]
    rfl
  case vline =>
    intro x y len hv
    rw [exec_vline_of_clear hf, s.plotAll_of_not_visible
      (List.forall_mem_map.2 fun k hk => hv k (mem_clip.1 hk).1)]
    rfl
  case shapes =>
    exact fun x y w h hv => ⟨exec_rect_of_not_visible hf hv, exec_oval_of_not_visible hf hv⟩
  case text =>
    intro ptr len x y hr hv
    have hloop : textLoop x len ptr x y s = s := by
      simpa [cellsBefore, linesBefore] using
        textLoop_of_not_visible len 0 (by simpa only [Nat.zero_add] using hv)
    rw [exec_text_of_clear hf hr, hloop]
    rfl

end Sys2Proof.Proofs
end

section
/-! PROOFS. 41_blit.md: what a blit samples (R145) and the values it reads (R143), in the terms of
the statements; its picture where no read sees a write; and the order of its reads and writes (R146,
R148). -/

namespace Sys2Proof.Machine

open Sys2Proof Sys2Proof.Claims

/-! ### The operands of BLITSUB in the terms of the statements (R141 to R143) -/

theorem blitMode_flipX (xinv : Bool) (flags : Word) :
    (blitMode xinv flags).flipX = mirrorsX xinv flags := by
  rw [mirrorsX, Bool.bne_eq_xor]
  rfl

section Operands

variable (c : Config) (ptr : Nat) (x y : Int) (w h srcX srcY stride : Nat) (flags : Word)

theorem blitSubOf_target (i j : Nat) :
    (blitSubOf c ptr x y w h srcX srcY stride flags).target i j = spriteTarget flags x y i j := rfl

theorem blitSubOf_pixelNumber (i j : Nat) :
    (blitSubOf c ptr x y w h srcX srcY stride flags).pixelNumber i j =
      spriteNumber c.rotateXinv flags w h srcX srcY stride i j := by
  simp only [Blit.pixelNumber, spriteNumber, blitSubOf, blitMode_flipX]
  rfl

theorem blitSubOf_byteAddr (n : Nat) :
    (blitSubOf c ptr x y w h srcX srcY stride flags).byteAddr n = spriteByte flags ptr n := by
  simp only [Blit.byteAddr, spriteByte, Nat.shiftRight_eq_div_pow]
  rfl

/-- The value of a source pixel, most significant bit or pair first (R143). -/
theorem blitSubOf_sourceValue (s : State) (n : Nat) :
    (blitSubOf c ptr x y w h srcX srcY stride flags).sourceValue s n =
      spriteValue s flags ptr n := by
  have pair : 2 ^ (6 - 2 * (n % 4)) = 4 ^ (3 - n % 4) := by
    rw [show 6 - 2 * (n % 4) = 2 * (3 - n % 4) by omega, pow_mul]
    rfl
  simp only [Blit.sourceValue, spriteValue, blitSubOf_byteAddr, Nat.shiftRight_eq_div_pow, pair]
  rfl

end Operands

theorem spriteValue_lt (s : State) (flags : Word) (ptr n : Nat) :
    spriteValue s flags ptr n < 4 := by
  unfold spriteValue
  dsimp only
  split <;> omega

/-- A sprite pixel's role in `inked`: role value + 1 (R143). -/
theorem valueOf_roleOfValue {v : Nat} (h : v < 4) : valueOf (roleOfValue v) = v := by
  interval_cases v <;> rfl

theorem toNat_getD_remap_roleOfValue {v : Nat} (h : v < 4) (s : State) (old : BitVec 2) :
    ((s.remap (roleOfValue v)).getD old).toNat = inked s v old.toNat := by
  rw [inked_eq, valueOf_roleOfValue h]

/-- Two sprite pixels with one target are one pixel (R142). -/
theorem Blit.target_injective {b : Blit} {i j i' j' : Nat} (h : b.target i j = b.target i' j') :
    i = i' ∧ j = j' := by
  unfold Blit.target at h
  split at h <;> (rw [Prod.mk.injEq] at h; omega)

/-! ### Phase 1: the sampled addresses (R145) -/

/-- The addresses of the source bytes of the sampled pixels, in the order they are read. -/
def Blit.sampledAddrs (b : Blit) : List Nat :=
  b.sampled.map fun p => b.byteAddr (b.pixelNumber p.1 p.2)

theorem mem_sampledAddrs_iff_samples {c : Config} {ptr : Nat} {x y : Int}
    {w h srcX srcY stride : Nat} {flags : Word} {a : Nat} :
    a ∈ (blitSubOf c ptr x y w h srcX srcY stride flags).sampledAddrs ↔
      samples c.rotateXinv flags ptr x y w h srcX srcY stride a := by
  simp only [Blit.sampledAddrs, List.mem_map, Prod.exists, Blit.mem_sampled, ← visible_iff_onScreen,
    blitSubOf_byteAddr, blitSubOf_pixelNumber, samples, and_assoc, eq_comm (a := a)]
  rfl

theorem Blit.sourceFault_eq_none_iff {b : Blit} :
    b.sourceFault = none ↔ ∀ a ∈ b.sampledAddrs, a ≤ 0xFFFF := leastAbove_none

/-- The fault of phase 1 is the least sampled address above 0xFFFF. -/
theorem Blit.sourceFault_of_least {b : Blit} {a : Nat} (hm : a ∈ b.sampledAddrs) (ha : 0xFFFF < a)
    (hl : ∀ a' ∈ b.sampledAddrs, 0xFFFF < a' → a ≤ a') : b.sourceFault = some a := by
  cases hs : b.sourceFault with
  | none =>
    have := Blit.sourceFault_eq_none_iff.1 hs a hm
    omega
  | some m =>
    obtain ⟨hmem, habove, hleast⟩ := leastAbove_some hs
    exact congrArg some (le_antisymm (hleast a hm ha) (hl m hmem habove))

/-! ### Phase 2: the picture (R143, R146) -/

/-- A pixel no visited sprite pixel targets keeps its slot. -/
theorem Blit.foldl_drawPixel_fb_of_untargeted {b : Blit} {l : List (Nat × Nat)} {qx qy : Int}
    (hq : onScreen qx qy = true) (h : ∀ p ∈ l, b.target p.1 p.2 ≠ (qx, qy)) (s : State) :
    (l.foldl b.drawPixel s).fb qx qy = s.fb qx qy := by
  induction l generalizing s with
  | nil => rfl
  | cons p l ih =>
    obtain ⟨hp, hl⟩ := List.forall_mem_cons.1 h
    rw [List.foldl_cons, ih hl, Blit.drawPixel, s.plot_fb _ _ _ hq, if_neg]
    exact fun e => hp (Prod.ext e.1.symm e.2.symm)

/-- The plot of a sprite pixel, its source value read in `s`. -/
def Blit.plotOf (b : Blit) (s : State) (p : Nat × Nat) : Int × Int × Role :=
  ((b.target p.1 p.2).1, (b.target p.1 p.2).2,
    roleOfValue (b.sourceValue s (b.pixelNumber p.1 p.2)))

/-- The source bytes of the pixels of `l` lie outside the framebuffer. -/
def Blit.readsOutside (b : Blit) (l : List (Nat × Nat)) : Prop :=
  ∀ p ∈ l, b.byteAddr (b.pixelNumber p.1 p.2) < 0xA0 ∨ 0x199F < b.byteAddr (b.pixelNumber p.1 p.2)

/-- Where no read can see a write, the visited pixels are the plots of the values read in any state
that agrees outside the framebuffer. -/
theorem Blit.foldl_drawPixel_of_readsOutside {b : Blit} {l : List (Nat × Nat)} {s t : State}
    (h : b.readsOutside l) (hst : agreesOffScreen s t) :
    l.foldl b.drawPixel t = t.plotAll (l.map (b.plotOf s)) := by
  induction l generalizing t with
  | nil => rfl
  | cons p l ih =>
    obtain ⟨hp, hl⟩ := List.forall_mem_cons.1 h
    have hread : b.sourceValue t (b.pixelNumber p.1 p.2) =
        b.sourceValue s (b.pixelNumber p.1 p.2) := by
      simp only [Blit.sourceValue, State.srcByte, State.readByte, hst _ hp]
    have hdraw : b.drawPixel t p =
        t.plot (b.plotOf s p).1 (b.plotOf s p).2.1 (b.plotOf s p).2.2 := by
      rw [Blit.drawPixel, hread]
      rfl
    rw [List.foldl_cons, hdraw, ih hl (hst.trans (t.plot_agrees _ _ _))]
    rfl

/-- The picture of such a blit at the target of a sprite pixel: targets are distinct, so the one plot
there decides. -/
theorem Blit.foldl_sampled_fb_of_target {b : Blit} {s : State} (h : b.readsOutside b.sampled)
    {i j : Nat} {qx qy : Int} (hi : i < b.w) (hj : j < b.h) (ht : b.target i j = (qx, qy))
    (hq : onScreen qx qy = true) :
    (b.sampled.foldl b.drawPixel s).fb qx qy =
      (s.remap (roleOfValue (b.sourceValue s (b.pixelNumber i j)))).getD (s.fb qx qy) := by
  have hm : (i, j) ∈ b.sampled := Blit.mem_sampled.2 ⟨hi, hj, by rw [ht]; exact hq⟩
  have plotted : ∃ q ∈ b.sampled.map (b.plotOf s), q.1 = qx ∧ q.2.1 = qy :=
    ⟨_, List.mem_map_of_mem hm, congrArg Prod.fst ht, congrArg Prod.snd ht⟩
  rw [Blit.foldl_drawPixel_of_readsOutside h fun _ _ => rfl]
  refine State.plotAll_fb_of_mem hq plotted fun q hm' hx hy => ?_
  obtain ⟨⟨i', j'⟩, -, rfl⟩ := List.mem_map.1 hm'
  obtain ⟨rfl, rfl⟩ := Blit.target_injective (ht.trans (Prod.ext hx.symm hy.symm))
  rfl

/-! ### The order of the visits (R146, R148) -/

theorem clip_eq_filter (o : Int) (len : Nat) :
    clip o len = (List.range len).filter fun (k : Nat) => decide (0 ≤ o + k ∧ o + k ≤ 159) := by
  refine List.Pairwise.eq_of_mem_iff (r := (· < ·)) (List.pairwise_lt_range' 1)
    (List.pairwise_lt_range.filter _) fun k => ?_
  simp [mem_clip]

/-- A loop whose body does nothing off the screen may run over all its offsets (R145). -/
theorem foldl_clip {f : State → Nat → State} {o : Int} (len : Nat) (s : State)
    (h : ∀ t (k : Nat), ¬ (0 ≤ o + k ∧ o + k ≤ 159) → f t k = t) :
    (clip o len).foldl f s = (List.range len).foldl f s := by
  rw [clip_eq_filter, List.foldl_filter]
  refine List.foldl_ext _ _ _ fun t k _ => ?_
  split
  · rfl
  · rename_i hk
    exact (h t k fun hs => hk (decide_eq_true hs)).symm

/-- The columns and rows of a sprite, row by row (R146). -/
def spritePixels (w h : Nat) : List (Nat × Nat) :=
  (List.range h).flatMap fun j => (List.range w).map fun i => (i, j)

theorem mem_spritePixels {w h : Nat} {p : Nat × Nat} :
    p ∈ spritePixels w h ↔ p.1 < w ∧ p.2 < h := by
  obtain ⟨i, j⟩ := p
  simp [spritePixels, and_comm]

theorem spritePixels_succ_column (w : Nat) :
    spritePixels (w + 1) 1 =
      spritePixels w 1 ++ (spritePixels 1 1).map fun p => (p.1 + w, p.2) := by
  simp [spritePixels, List.range_succ]

theorem spritePixels_succ_row (w h : Nat) :
    spritePixels w (h + 1) = spritePixels w h ++ (spritePixels w 1).map fun p => (p.1, p.2 + h) := by
  simp [spritePixels, List.range_succ]

theorem foldl_clip_pixels {f : State → Nat × Nat → State} {ox oy : Int} (w h : Nat) (s : State)
    (off : ∀ t (i j : Nat), ¬ (0 ≤ ox + i ∧ ox + i ≤ 159) ∨ ¬ (0 ≤ oy + j ∧ oy + j ≤ 159) →
      f t (i, j) = t) :
    ((clip oy h).flatMap fun j => (clip ox w).map fun i => (i, j)).foldl f s =
      (spritePixels w h).foldl f s := by
  have row (j : Nat) (t : State) : ((clip ox w).map fun i => (i, j)).foldl f t =
      ((List.range w).map fun i => (i, j)).foldl f t := by
    rw [List.foldl_map, List.foldl_map]
    exact foldl_clip w t fun u i hi => off u i j (.inl hi)
  simp only [spritePixels, List.foldl_flatMap, row]
  refine foldl_clip h s fun t j hj => ?_
  rw [List.foldl_map]
  exact List.foldl_fixed' (fun i => off t i j (.inr hj)) _

/-- The target of a sprite pixel and the number of its source pixel (R142). -/
def Blit.visit (b : Blit) (p : Nat × Nat) : (Int × Int) × Nat :=
  (b.target p.1 p.2, b.pixelNumber p.1 p.2)

/-- All pixels of a sprite in the order of phase 2, those off the screen included. -/
def Blit.visits (b : Blit) : List ((Int × Int) × Nat) := (spritePixels b.w b.h).map b.visit

/-- One visit of phase 2: the source pixel is read, then plotted. -/
def Blit.drawVisit (b : Blit) (s : State) (v : (Int × Int) × Nat) : State :=
  s.plot v.1.1 v.1.2 (roleOfValue (b.sourceValue s v.2))

/-- Phase 2 may visit every pixel: a plot off the screen changes nothing. -/
theorem Blit.foldl_sampled (b : Blit) (s : State) :
    b.sampled.foldl b.drawPixel s = b.visits.foldl b.drawVisit s := by
  have off (t : State) (i j : Nat) (h : ¬ visible (b.target i j)) : b.drawPixel t (i, j) = t :=
    t.plot_of_not_visible h _
  have all : b.visits.foldl b.drawVisit s = (spritePixels b.w b.h).foldl b.drawPixel s :=
    List.foldl_map
  rw [all]
  unfold Blit.sampled
  split
  · rename_i hr
    refine foldl_clip_pixels _ _ s fun t i j hij => off t i j ?_
    simp only [Blit.target, if_pos hr, visible]
    omega
  · rename_i hr
    refine foldl_clip_pixels _ _ s fun t i j hij => off t i j ?_
    simp only [Blit.target, if_neg hr, visible]
    omega

theorem Blit.sourceFault_eq_none_iff_visits {b : Blit} :
    b.sourceFault = none ↔ ∀ v ∈ b.visits, visible v.1 → b.byteAddr v.2 ≤ 0xFFFF := by
  simp only [Blit.sourceFault_eq_none_iff, Blit.sampledAddrs, Blit.visits, List.forall_mem_map,
    Prod.forall, Blit.mem_sampled, mem_spritePixels, ← visible_iff_onScreen, Blit.visit]
  exact forall₂_congr fun i j => by tauto

theorem Blit.run_of_visits {b : Blit} (h : b.sourceFault = none) (s : State) :
    b.run s = (b.visits.foldl b.drawVisit s).finish := by
  rw [b.run_of_inside h, b.foldl_sampled]

/-! ### A blit in two parts (R148) -/

/-- No visit reads the port's answer. -/
theorem Blit.drawVisit_finish (b : Blit) (s : State) (v : (Int × Int) × Nat) :
    b.drawVisit s.finish v = (b.drawVisit s v).finish := by
  have hremap (k : Role) : s.finish.remap k = s.remap k := rfl
  have hvalue : b.sourceValue s.finish v.2 = b.sourceValue s v.2 := rfl
  simp only [Blit.drawVisit, State.plot, hvalue, hremap]
  split
  · rfl
  · unfold State.putPixel
    split <;> rfl

/-- Two blits that read source pixels alike. -/
structure Blit.SameSource (b b' : Blit) : Prop where
  ptr : b'.ptr = b.ptr
  mode : b'.mode = b.mode

theorem Blit.SameSource.byteAddr {b b' : Blit} (h : b.SameSource b') : b'.byteAddr = b.byteAddr := by
  funext n
  simp only [Blit.byteAddr, h.ptr, h.mode]

theorem Blit.SameSource.drawVisit {b b' : Blit} (h : b.SameSource b') :
    b'.drawVisit = b.drawVisit := by
  funext t v
  simp only [Blit.drawVisit, Blit.sourceValue, h.byteAddr, h.mode]

/-- A blit that faults nowhere and whose visits are those of `b₁` and then those of `b₂` is `b₁`, which
does not fault, and then `b₂`. -/
theorem Blit.run_of_visits_append {b b₁ b₂ : Blit} (hv : b.visits = b₁.visits ++ b₂.visits)
    (hb : b.sourceFault = none) (h₁ : b.SameSource b₁) (h₂ : b.SameSource b₂) (s : State) :
    b₁.sourceFault = none ∧ b₂.run (b₁.run s) = b.run s := by
  have inside := Blit.sourceFault_eq_none_iff_visits.1 hb
  rw [hv, List.forall_mem_append] at inside
  have hb₁ : b₁.sourceFault = none := by
    rw [Blit.sourceFault_eq_none_iff_visits, h₁.byteAddr]
    exact inside.1
  have hb₂ : b₂.sourceFault = none := by
    rw [Blit.sourceFault_eq_none_iff_visits, h₂.byteAddr]
    exact inside.2
  refine ⟨hb₁, ?_⟩
  rw [Blit.run_of_visits hb, Blit.run_of_visits hb₁, Blit.run_of_visits hb₂, hv, List.foldl_append,
    h₁.drawVisit, h₂.drawVisit, List.foldl_hom State.finish b.drawVisit_finish]
  rfl

/-- The visits of a sprite in two parts, from its pixels in two parts. -/
theorem Blit.visits_eq_append {b b₁ b₂ : Blit} {g : Nat × Nat → Nat × Nat}
    (hp : spritePixels b.w b.h = spritePixels b₁.w b₁.h ++ (spritePixels b₂.w b₂.h).map g)
    (h₁ : ∀ p, p.1 < b₁.w ∧ p.2 < b₁.h → b.visit p = b₁.visit p)
    (h₂ : ∀ p, p.1 < b₂.w ∧ p.2 < b₂.h → b.visit (g p) = b₂.visit p) :
    b.visits = b₁.visits ++ b₂.visits := by
  rw [Blit.visits, hp, List.map_append, List.map_map]
  exact congrArg₂ _ (List.map_congr_left fun p hm => h₁ p (mem_spritePixels.1 hm))
    (List.map_congr_left fun p hm => h₂ p (mem_spritePixels.1 hm))

section Parts

variable (c : Config) (ptr : Nat) (x y : Int) (w h srcX srcY stride : Nat) (flags : Word)

theorem blitSubOf_visit (p : Nat × Nat) :
    (blitSubOf c ptr x y w h srcX srcY stride flags).visit p =
      (spriteTarget flags x y p.1 p.2,
        spriteNumber c.rotateXinv flags w h srcX srcY stride p.1 p.2) :=
  Prod.ext (blitSubOf_target ..) (blitSubOf_pixelNumber ..)

theorem blitSubOf_visits_one :
    (blitSubOf c ptr x y 1 1 srcX srcY stride flags).visits = [((x, y), srcY * stride + srcX)] := by
  change [(blitSubOf c ptr x y 1 1 srcX srcY stride flags).visit (0, 0)] = _
  simp [blitSubOf_visit, spriteTarget, spriteNumber]

theorem spriteTarget_add (i i' j j' : Nat) :
    spriteTarget flags x y (i + i') (j + j') =
      spriteTarget flags (spriteTarget flags x y i' j').1 (spriteTarget flags x y i' j').2 i j := by
  unfold spriteTarget
  split <;> (push_cast; ext <;> dsimp only <;> omega)

/-- The visits of a row of w + 1 pixels (R142, R148). -/
theorem blitSubOf_visits_succ_column :
    (blitSubOf c ptr x y (w + 1) 1 srcX srcY stride flags).visits =
      (blitSubOf c ptr x y w 1 (srcX + if mirrorsX c.rotateXinv flags then 1 else 0) srcY stride
        flags).visits ++
      (blitSubOf c ptr (spriteTarget flags x y w 0).1 (spriteTarget flags x y w 0).2 1 1
        (srcX + if mirrorsX c.rotateXinv flags then 0 else w) srcY stride flags).visits := by
  refine Blit.visits_eq_append (spritePixels_succ_column w) (fun p hp => ?first) fun p hp => ?last
  case first =>
    obtain ⟨hi, hj⟩ : p.1 < w ∧ p.2 < 1 := hp
    simp only [blitSubOf_visit, spriteNumber]
    congr 2
    split <;> omega
  case last =>
    obtain ⟨hi, hj⟩ : p.1 < 1 ∧ p.2 < 1 := hp
    simp only [blitSubOf_visit, spriteNumber, ← spriteTarget_add]
    congr 2
    split <;> omega

/-- The visits of h + 1 rows (R142, R148). -/
theorem blitSubOf_visits_succ_row :
    (blitSubOf c ptr x y w (h + 1) srcX srcY stride flags).visits =
      (blitSubOf c ptr x y w h srcX (srcY + if flags.getLsbD 2 then 1 else 0) stride flags).visits ++
      (blitSubOf c ptr (spriteTarget flags x y 0 h).1 (spriteTarget flags x y 0 h).2 w 1 srcX
        (srcY + if flags.getLsbD 2 then 0 else h) stride flags).visits := by
  refine Blit.visits_eq_append (spritePixels_succ_row w h) (fun p hp => ?first) fun p hp => ?last
  case first =>
    obtain ⟨hi, hj⟩ : p.1 < w ∧ p.2 < h := hp
    simp only [blitSubOf_visit, spriteNumber]
    congr 3
    split <;> omega
  case last =>
    obtain ⟨hi, hj⟩ : p.1 < w ∧ p.2 < 1 := hp
    simp only [blitSubOf_visit, spriteNumber, ← spriteTarget_add]
    congr 3
    split <;> omega

end Parts

/-! ### BLITSUB while FAULT.set = 0 (R146) -/

/-- A blit whose source lies in memory keeps FAULT. -/
theorem Blit.run_fault_of_inside {b : Blit} (h : b.sourceFault = none) (s : State) :
    (b.run s).fault = s.fault := by
  rw [b.run_of_inside h, (Draws.blit b b.sampled s).eq]
  rfl

theorem pixelAt_finish (s : State) (px py : Nat) : pixelAt s.finish px py = pixelAt s px py := rfl

section Commands

variable {s : State} {ptr w h srcX srcY stride : Nat} {x y : Int} {flags : Word}

/-- A BLITSUB that completes met no fault in phase 1. -/
theorem exec_blitSub_completes {t : State}
    (he : exec (.blitSub ptr x y w h srcX srcY stride flags) s = .next t)
    (ht : t.fault.set = false) :
    s.fault.set = false ∧ (blitSubOf s.cfg ptr x y w h srcX srcY stride flags).sourceFault = none ∧
      t = (blitSubOf s.cfg ptr x y w h srcX srcY stride flags).run s := by
  obtain ⟨hf, rfl⟩ := State.accept_next.1 he
  refine ⟨hf, ?_, rfl⟩
  cases hs : (blitSubOf s.cfg ptr x y w h srcX srcY stride flags).sourceFault with
  | none => rfl
  | some a => rw [Blit.run_of_above hs, State.raise_set] at ht; cases ht

/-- BLITSUB with its source in memory draws its sampled pixels in order (R146). -/
theorem exec_blitSub_of_inside (hf : s.fault.set = false)
    (ha : ∀ a, samples s.cfg.rotateXinv flags ptr x y w h srcX srcY stride a → a ≤ 0xFFFF) :
    exec (.blitSub ptr x y w h srcX srcY stride flags) s =
      .next ((blitSubOf s.cfg ptr x y w h srcX srcY stride flags).sampled.foldl
        (blitSubOf s.cfg ptr x y w h srcX srcY stride flags).drawPixel s).finish := by
  rw [exec_blitSub_of_clear hf, Blit.run_of_inside]
  exact Blit.sourceFault_eq_none_iff.2 fun a hm => ha a (mem_sampledAddrs_iff_samples.1 hm)

/-- A BLITSUB in two parts, the second run in the state the first leaves (R148). -/
theorem exec_blitSub_in_two_parts {t : State} {x₁ y₁ x₂ y₂ : Int}
    {w₁ h₁ srcX₁ srcY₁ w₂ h₂ srcX₂ srcY₂ : Nat}
    (hv : (blitSubOf s.cfg ptr x y w h srcX srcY stride flags).visits =
      (blitSubOf s.cfg ptr x₁ y₁ w₁ h₁ srcX₁ srcY₁ stride flags).visits ++
        (blitSubOf s.cfg ptr x₂ y₂ w₂ h₂ srcX₂ srcY₂ stride flags).visits)
    (he : exec (.blitSub ptr x y w h srcX srcY stride flags) s = .next t)
    (ht : t.fault.set = false) :
    ∃ u, exec (.blitSub ptr x₁ y₁ w₁ h₁ srcX₁ srcY₁ stride flags) s = .next u ∧
      exec (.blitSub ptr x₂ y₂ w₂ h₂ srcX₂ srcY₂ stride flags) u = .next t := by
  obtain ⟨hf, hb, rfl⟩ := exec_blitSub_completes he ht
  obtain ⟨hb₁, hrun⟩ := Blit.run_of_visits_append hv hb ⟨rfl, rfl⟩ ⟨rfl, rfl⟩ s
  have first := exec_blitSub_of_clear hf ptr w₁ h₁ srcX₁ srcY₁ stride x₁ y₁ flags
  refine ⟨_, first, ?_⟩
  have hf₁ := Blit.run_fault_of_inside hb₁ s
  rw [exec_blitSub_of_clear (by rw [hf₁, hf]), exec_cfg first, hrun]

end Commands

end Sys2Proof.Machine

namespace Sys2Proof.Proofs

open Sys2Proof Sys2Proof.Machine Sys2Proof.Claims

/-- Settles O23 (R147): BLIT's operands are defined as BLITSUB's with these values. -/
theorem blitIsBlitSub : Obligations.BlitIsBlitSub :=
  fun _ _ _ _ _ _ _ => rfl

/-- Settles O28 (R145, R146, 60_exceptions.md R222): phase 1 finds the least sampled address above
0xFFFF and takes the fault. -/
theorem blitSourceAboveMemoryRaisesSrcRange : Obligations.BlitSourceAboveMemoryRaisesSrcRange := by
  intro s ptr w h srcX srcY stride a x y flags hf hs ha hleast
  have hfault : (blitSubOf s.cfg ptr x y w h srcX srcY stride flags).sourceFault = some a :=
    Blit.sourceFault_of_least (mem_sampledAddrs_iff_samples.2 hs) ha fun b hb =>
      hleast b (mem_sampledAddrs_iff_samples.1 hb)
  rw [exec_blitSub_of_clear hf, Blit.run_of_above hfault, raise_eq_faulted hf]
  rfl

/-- Settles O26 (R145, R146, R148): phase 1 finds no fault, phase 2 only draws, and each draw changes
its target alone. -/
theorem blitsCompleteOverAnySource : Obligations.BlitsCompleteOverAnySource := by
  intro s ptr w h srcX srcY stride x y flags hf ha
  refine ⟨_, exec_blitSub_of_inside hf ha, Draws_onlyDrew (Draws.blit _ _ s),
    fun px py hx hy hno => ?_⟩
  rw [pixelAt_finish, pixelAt_eq, pixelAt_eq,
    Blit.foldl_drawPixel_fb_of_untargeted (onScreen_natCast hx hy)]
  intro p hp
  obtain ⟨hi, hj, -⟩ := Blit.mem_sampled.1 hp
  exact hno _ _ hi hj

/-- Settles O24 (R141 to R146): no read sees a write, so the pixel at a target takes the role of the
value read there in the first state; the rest is `blitsCompleteOverAnySource`. -/
theorem blitSubDrawsSprite : Obligations.BlitSubDrawsSprite := by
  intro s ptr w h srcX srcY stride x y flags hf ha
  obtain ⟨t, he, hdrew, hkept⟩ := blitsCompleteOverAnySource s ptr w h srcX srcY stride x y flags hf
    fun a hs => (ha a hs).1
  refine ⟨t, he, hdrew, fun px py hx hy => ⟨fun i j hi hj htarget => ?_, hkept px py hx hy⟩⟩
  rw [exec_blitSub_of_inside hf fun a hs => (ha a hs).1, Host.Outcome.next.injEq] at he
  subst he
  have outside : (blitSubOf s.cfg ptr x y w h srcX srcY stride flags).readsOutside
      (blitSubOf s.cfg ptr x y w h srcX srcY stride flags).sampled := fun p hp =>
    (ha _ (mem_sampledAddrs_iff_samples.1 (List.mem_map_of_mem hp))).2
  rw [pixelAt_finish, pixelAt_eq, pixelAt_eq,
    Blit.foldl_sampled_fb_of_target outside hi hj htarget (onScreen_natCast hx hy),
    blitSubOf_sourceValue, blitSubOf_pixelNumber, toNat_getD_remap_roleOfValue (spriteValue_lt ..)]

/-- Settles O25 (R141 to R147): `blitIsBlitSub` turns it into a case of `blitSubDrawsSprite`. -/
theorem blitDrawsSprite : Obligations.BlitDrawsSprite := by
  intro s ptr w h x y flags
  rw [blitIsBlitSub]
  exact blitSubDrawsSprite s ptr w h 0 0 w x y flags

/-- Settles O27 (R141 to R146, R148, 70_reset_and_hazards.md R262): the visits of one pixel are one
plot; those of w + 1 columns, and of h + 1 rows, are those of the two parts. -/
theorem blitSourceOverlapFollowsTheOrder : Obligations.BlitSourceOverlapFollowsTheOrder := by
  intro s ptr w h srcX srcY stride x y flags
  refine ⟨?pixel, fun t => exec_blitSub_in_two_parts (blitSubOf_visits_succ_column ..),
    fun t => exec_blitSub_in_two_parts (blitSubOf_visits_succ_row ..)⟩
  case pixel =>
    intro hf ha
    have hb : (blitSubOf s.cfg ptr x y 1 1 srcX srcY stride flags).sourceFault = none := by
      rw [Blit.sourceFault_eq_none_iff_visits, blitSubOf_visits_one, List.forall_mem_singleton,
        blitSubOf_byteAddr]
      exact ha
    have hrun := Blit.run_of_visits hb s
    rw [blitSubOf_visits_one, List.foldl_cons, List.foldl_nil, Blit.drawVisit,
      blitSubOf_sourceValue] at hrun
    refine ⟨_, exec_blitSub_of_clear hf .., ?_⟩
    rw [hrun]
    refine ⟨Draws_onlyDrew (Draws.plot s _ _ _), fun px py hx hy => ?_⟩
    rw [pixelAt_finish, pixelAt_eq, pixelAt_eq, s.plot_fb _ _ _ (onScreen_natCast hx hy)]
    split
    · exact toNat_getD_remap_roleOfValue (spriteValue_lt ..) s _
    · rfl

end Sys2Proof.Proofs
end

section
/-! PROOFS. 42_lines.md: the points of the loop of LINE in closed form (R161), and the picture of a list
of points drawn with role 1 (R160): that of LINE, of HLINE and of VLINE (R162, R163). -/

namespace Sys2Proof.Machine

open Sys2Proof Sys2Proof.Claims

/-! ### The steps along the shorter axis (R161)

After `k` steps along the longer axis, of length `major`, the loop has taken `minorSteps major minor k`
steps along the shorter, of length `minor`: as many as keep the error term from 0 to `major - 1`. -/

/-- `k * minor / major` rounded to the nearest number, a half downwards. -/
def minorSteps (major minor k : Nat) : Nat := (k * minor + (major - 1) / 2) / major

/-- The error term after `k` steps along the longer axis. In a y-major line the loop holds its
negative. -/
def lineError (major minor k : Nat) : Int :=
  (major / 2 : Nat) - k * minor + minorSteps major minor k * major

/-- A line along one axis takes no step along the other. -/
theorem minorSteps_of_zero {major minor k : Nat} (h : k * minor = 0) :
    minorSteps major minor k = 0 := by
  rw [minorSteps, h, Nat.div_eq_zero_iff]
  omega

section MinorSteps

variable {major minor k r : Nat} (h : 0 < major)
include h

theorem minorSteps_le_iff : minorSteps major minor k ≤ r ↔ k * minor ≤ major / 2 + r * major := by
  rw [minorSteps, Nat.div_le_iff_le_mul_add_pred h, mul_comm major r]
  omega

theorem minorSteps_bounds :
    k * minor ≤ major / 2 + minorSteps major minor k * major ∧
      major / 2 + minorSteps major minor k * major < k * minor + major := by
  have hle : minorSteps major minor k * major ≤ k * minor + (major - 1) / 2 :=
    Nat.div_mul_le_self ..
  exact ⟨(minorSteps_le_iff h).1 le_rfl, by omega⟩

theorem minorSteps_eq (hlo : k * minor ≤ major / 2 + r * major)
    (hhi : major / 2 + r * major < k * minor + major) : minorSteps major minor k = r := by
  refine Nat.div_eq_of_lt_le ?_ ?_
  · omega
  · rw [add_one_mul]
    omega

theorem lineError_bounds : 0 ≤ lineError major minor k ∧ lineError major minor k < major := by
  have hb := minorSteps_bounds (minor := minor) (k := k) h
  rw [lineError]
  zify at hb
  omega

theorem minorSteps_succ (hm : minor ≤ major) :
    minorSteps major minor (k + 1) =
      if lineError major minor k < minor then minorSteps major minor k + 1
      else minorSteps major minor k := by
  obtain ⟨hlo, hhi⟩ := minorSteps_bounds (minor := minor) (k := k) h
  have short : lineError major minor k < minor ↔
      major / 2 + minorSteps major minor k * major < k * minor + minor := by
    rw [lineError]
    zify
    omega
  simp only [short]
  split
  · refine minorSteps_eq h ?_ ?_ <;> (rw [add_one_mul, add_one_mul]; omega)
  · refine minorSteps_eq h ?_ ?_ <;> (rw [add_one_mul]; omega)

theorem lineError_succ (hm : minor ≤ major) :
    lineError major minor (k + 1) =
      lineError major minor k - minor +
        if lineError major minor k < minor then (major : Int) else 0 := by
  rw [lineError, minorSteps_succ h hm]
  split_ifs <;> (rw [lineError]; push_cast; ring)

end MinorSteps

theorem minorSteps_self {major minor : Nat} (hm : minor ≤ major) :
    minorSteps major minor major = minor := by
  rcases Nat.eq_zero_or_pos major with rfl | h
  · rw [minorSteps_of_zero (zero_mul _), Nat.le_zero.1 hm]
  · exact minorSteps_eq h (by rw [mul_comm minor]; omega) (by rw [mul_comm minor]; omega)

/-- The steps along the shorter axis are the least number that keeps the error term at least 0. -/
theorem minorSteps_least {major k : Nat} (minor : Nat) (hk : k ≤ major) :
    k * minor ≤ major / 2 + minorSteps major minor k * major ∧
      ∀ q < minorSteps major minor k, major / 2 + q * major < k * minor := by
  rcases Nat.eq_zero_or_pos major with rfl | h
  · simp [Nat.le_zero.1 hk, minorSteps_of_zero]
  · refine ⟨(minorSteps_bounds h).1, fun q hq => ?_⟩
    rwa [← not_le, minorSteps_le_iff h, not_le] at hq

/-! ### The loop of LINE (R161) -/

/-- The step of a line from column `x1` to column `x2`. -/
def lineDir (x1 x2 : Int) : Int := if x1 < x2 then 1 else -1

theorem add_lineDir_mul_natAbs (x1 x2 : Int) : x1 + lineDir x1 x2 * (x2 - x1).natAbs = x2 := by
  unfold lineDir
  split <;> omega

/-- Point `k` of the line from (x1, y1) to (x2, y2), where y1 ≤ y2. -/
def linePoint (x1 y1 x2 y2 : Int) (k : Nat) : Int × Int :=
  if (y2 - y1).natAbs < (x2 - x1).natAbs then
    (x1 + lineDir x1 x2 * k, y1 + minorSteps (x2 - x1).natAbs (y2 - y1).natAbs k)
  else
    (x1 + lineDir x1 x2 * minorSteps (y2 - y1).natAbs (x2 - x1).natAbs k, y1 + k)

/-- The loop of LINE passes through the points `point 0`, ..., `point n` with the error terms `err`, and
ends at the last. -/
structure LineTrace (x2 y2 dx dy sx : Int) (point : Nat → Int × Int) (err : Nat → Int) (n : Nat) :
    Prop where
  last : point n = (x2, y2)
  earlier : ∀ k < n, point k ≠ (x2, y2)
  point_succ : ∀ k < n, point (k + 1) =
    (if err k > -dx then (point k).1 + sx else (point k).1,
      if err k < dy then (point k).2 + 1 else (point k).2)
  err_succ : ∀ k < n, err (k + 1) =
    err k - (if err k > -dx then dy else 0) + (if err k < dy then dx else 0)

theorem LineTrace.lineLoop_eq {x2 y2 dx dy sx : Int} {point : Nat → Int × Int} {err : Nat → Int}
    {n : Nat} (h : LineTrace x2 y2 dx dy sx point err n) (m k fuel : Nat) (hn : k + m = n)
    (hm : m ≤ fuel) :
    lineLoop x2 y2 dx dy sx fuel (point k).1 (point k).2 (err k) =
      (List.range' k (m + 1)).map point := by
  induction m generalizing k fuel with
  | zero =>
    obtain rfl : k = n := hn
    cases fuel <;> simp [lineLoop, h.last]
  | succ m ih =>
    obtain ⟨fuel, rfl⟩ := Nat.exists_eq_add_one.2 (Nat.zero_lt_of_lt hm)
    have hk : k < n := by omega
    have hne : ¬ ((point k).1 = x2 ∧ (point k).2 = y2) := fun e =>
      h.earlier k hk (Prod.ext e.1 e.2)
    have rest := ih (k + 1) fuel (by omega) (by omega)
    rw [h.point_succ k hk, h.err_succ k hk] at rest
    rw [lineLoop, if_neg hne, rest]
    rfl

section Trace

variable {x1 y1 x2 y2 : Int} (hy : y1 ≤ y2)
include hy

theorem lineTrace_of_xMajor (hd : (y2 - y1).natAbs < (x2 - x1).natAbs) :
    LineTrace x2 y2 (x2 - x1).natAbs (y2 - y1).natAbs (lineDir x1 x2) (linePoint x1 y1 x2 y2)
      (lineError (x2 - x1).natAbs (y2 - y1).natAbs) (x2 - x1).natAbs := by
  have hend := add_lineDir_mul_natAbs x1 x2
  have hpoint (k : Nat) : linePoint x1 y1 x2 y2 k = _ := if_pos hd
  generalize hdx : (x2 - x1).natAbs = dx at *
  have hpos : 0 < dx := by omega
  have hx (k : Nat) : lineError dx (y2 - y1).natAbs k > -dx := by
    have := (lineError_bounds (minor := (y2 - y1).natAbs) (k := k) hpos).1
    omega
  refine ⟨?_, fun k hk => ?_, fun k _ => ?_, fun k _ => ?_⟩
  · rw [hpoint, minorSteps_self hd.le, hend]
    ext <;> dsimp only; omega
  · rw [hpoint, Ne, Prod.mk.injEq]
    unfold lineDir
    split <;> omega
  · rw [hpoint, hpoint, if_pos (hx k), minorSteps_succ hpos hd.le]
    split <;> (push_cast; ext <;> dsimp only <;> ring)
  · rw [if_pos (hx k), lineError_succ hpos hd.le]

theorem lineTrace_of_yMajor (hd : ¬ (y2 - y1).natAbs < (x2 - x1).natAbs) :
    LineTrace x2 y2 (x2 - x1).natAbs (y2 - y1).natAbs (lineDir x1 x2) (linePoint x1 y1 x2 y2)
      (fun k => -lineError (y2 - y1).natAbs (x2 - x1).natAbs k) (y2 - y1).natAbs := by
  have hend := add_lineDir_mul_natAbs x1 x2
  have hpoint (k : Nat) : linePoint x1 y1 x2 y2 k = _ := if_neg hd
  generalize hdy : (y2 - y1).natAbs = dy at *
  have hy' (k : Nat) (hk : k < dy) : -lineError dy (x2 - x1).natAbs k < dy := by
    have := (lineError_bounds (minor := (x2 - x1).natAbs) (k := k) (by omega : 0 < dy)).1
    omega
  refine ⟨?_, fun k hk => ?_, fun k hk => ?_, fun k hk => ?_⟩
  · rw [hpoint, minorSteps_self (by omega), hend]
    ext <;> dsimp only; omega
  · rw [hpoint, Ne, Prod.mk.injEq]
    omega
  · rw [hpoint, hpoint, if_pos (hy' k hk), minorSteps_succ (by omega) (by omega)]
    simp only [gt_iff_lt, neg_lt_neg_iff]
    split <;> (push_cast; ext <;> dsimp only <;> ring)
  · rw [if_pos (hy' k hk), lineError_succ (by omega) (by omega)]
    simp only [gt_iff_lt, neg_lt_neg_iff]
    split <;> ring

end Trace

theorem linePoint_zero (x1 y1 x2 y2 : Int) : linePoint x1 y1 x2 y2 0 = (x1, y1) := by
  simp [linePoint, minorSteps_of_zero]

/-- The loop of LINE, its endpoints ordered by row, passes through max(dx, dy) + 1 points. -/
theorem exists_lineTrace {x1 y1 x2 y2 : Int} (hy : y1 ≤ y2) :
    ∃ err : Nat → Int,
      LineTrace x2 y2 (x2 - x1).natAbs (y2 - y1).natAbs (lineDir x1 x2) (linePoint x1 y1 x2 y2) err
        (max (x2 - x1).natAbs (y2 - y1).natAbs) ∧
      err 0 = if ((x2 - x1).natAbs : Int) > (y2 - y1).natAbs then ((x2 - x1).natAbs : Int) / 2
        else -(((y2 - y1).natAbs : Int) / 2) := by
  have hstart (major minor : Nat) : lineError major minor 0 = (major : Int) / 2 := by
    simp [lineError, minorSteps_of_zero]
  by_cases hd : (y2 - y1).natAbs < (x2 - x1).natAbs
  · rw [max_eq_left hd.le]
    refine ⟨_, lineTrace_of_xMajor hy hd, ?_⟩
    rw [hstart, if_pos (Int.ofNat_lt.2 hd)]
  · rw [max_eq_right (not_lt.1 hd)]
    refine ⟨_, lineTrace_of_yMajor hy hd, ?_⟩
    rw [hstart, if_neg fun h => hd (Int.ofNat_lt.1 h)]

theorem linePointsDown_eq {x1 y1 x2 y2 : Int} (hy : y1 ≤ y2) :
    linePointsDown x1 y1 x2 y2 =
      (List.range (max (x2 - x1).natAbs (y2 - y1).natAbs + 1)).map (linePoint x1 y1 x2 y2) := by
  obtain ⟨err, htrace, hstart⟩ := exists_lineTrace hy
  have hloop := htrace.lineLoop_eq _ 0 ((x2 - x1).natAbs + (y2 - y1).natAbs) (Nat.zero_add _)
    (max_le_add_of_nonneg (Nat.zero_le _) (Nat.zero_le _))
  rw [linePoint_zero, hstart, ← List.range_eq_range'] at hloop
  have hdy : y2 - y1 = (y2 - y1).natAbs := by omega
  dsimp only [linePointsDown]
  rw [← hloop, ← lineDir, hdy, Int.toNat_natCast, Int.natAbs_natCast]

/-- With its endpoints ordered by row, LINE plots the points `linePoint` in order. -/
theorem linePoints_eq {x1 y1 x2 y2 : Int} (hy : y1 ≤ y2) :
    linePoints x1 y1 x2 y2 =
      (List.range (max (x2 - x1).natAbs (y2 - y1).natAbs + 1)).map (linePoint x1 y1 x2 y2) := by
  rw [linePoints, if_neg (not_lt.2 hy), linePointsDown_eq hy]

/-- LINE orders its endpoints by row. -/
theorem linePoints_swap {x1 y1 x2 y2 : Int} (hy : y2 < y1) :
    linePoints x1 y1 x2 y2 = linePoints x2 y2 x1 y1 := by
  rw [linePoints, linePoints, if_pos hy, if_neg (not_lt.2 hy.le)]

/-! ### The points of LINE from end to end (R164 (b)) -/

theorem linePoint_last {x1 y1 x2 y2 : Int} (hy : y1 ≤ y2) :
    linePoint x1 y1 x2 y2 (max (x2 - x1).natAbs (y2 - y1).natAbs) = (x2, y2) := by
  obtain ⟨err, htrace, -⟩ := exists_lineTrace hy
  exact htrace.last

/-- Points at most 1 apart in each coordinate, the row not decreasing. -/
def unitStep (p q : Int × Int) : Prop :=
  -1 ≤ q.1 - p.1 ∧ q.1 - p.1 ≤ 1 ∧ 0 ≤ q.2 - p.2 ∧ q.2 - p.2 ≤ 1

theorem unitStep_linePoint {x1 y1 x2 y2 : Int} (hy : y1 ≤ y2) {k : Nat}
    (hk : k < max (x2 - x1).natAbs (y2 - y1).natAbs) :
    unitStep (linePoint x1 y1 x2 y2 k) (linePoint x1 y1 x2 y2 (k + 1)) := by
  obtain ⟨err, htrace, -⟩ := exists_lineTrace hy
  have hdir : lineDir x1 x2 = 1 ∨ lineDir x1 x2 = -1 := ite_eq_or_eq ..
  rw [htrace.point_succ k hk, unitStep]
  dsimp only
  generalize lineDir x1 x2 = sx at *
  split <;> split <;> omega

/-- Number, ends and unit steps of the points, the endpoints ordered by row. -/
theorem linePoints_connect {x1 y1 x2 y2 : Int} (hy : y1 ≤ y2) :
    (linePoints x1 y1 x2 y2).length = max (x2 - x1).natAbs (y2 - y1).natAbs + 1 ∧
    (linePoints x1 y1 x2 y2).head? = some (x1, y1) ∧
    (linePoints x1 y1 x2 y2).getLast? = some (x2, y2) ∧
    (linePoints x1 y1 x2 y2).IsChain unitStep := by
  rw [linePoints_eq hy]
  refine ⟨by simp, ?_, ?_, ?_⟩
  · rw [List.range_succ_eq_map, List.map_cons, List.head?_cons, linePoint_zero]
  · rw [List.range_succ, List.map_append, List.map_singleton, List.getLast?_concat,
      linePoint_last hy]
  · exact (List.isChain_map _).2 <| (List.isChain_range_succ ..).2 fun k hk =>
      unitStep_linePoint hy hk

/-! ### Horizontal and vertical lines (R164) -/

/-- The points of HLINE (R162), off the screen or not. -/
def rowPoints (x y : Int) (len : Nat) : List (Int × Int) :=
  (List.range len).map fun (k : Nat) => (x + k, y)

/-- The points of VLINE (R163), off the screen or not. -/
def columnPoints (x y : Int) (len : Nat) : List (Int × Int) :=
  (List.range len).map fun (k : Nat) => (x, y + k)

theorem exists_offset_iff {o p : Int} {len : Nat} :
    (∃ k < len, o + (k : Int) = p) ↔ o ≤ p ∧ p < o + len := by
  constructor
  · rintro ⟨k, hk, rfl⟩
    omega
  · exact fun h => ⟨(p - o).toNat, by omega⟩

theorem mem_rowPoints {x y px py : Int} {len : Nat} :
    (px, py) ∈ rowPoints x y len ↔ py = y ∧ x ≤ px ∧ px < x + len := by
  simp only [rowPoints, List.mem_map, List.mem_range, Prod.mk.injEq, ← and_assoc,
    exists_and_right, exists_offset_iff]
  tauto

theorem mem_columnPoints {x y px py : Int} {len : Nat} :
    (px, py) ∈ columnPoints x y len ↔ px = x ∧ y ≤ py ∧ py < y + len := by
  simp only [columnPoints, List.mem_map, List.mem_range, Prod.mk.injEq, and_left_comm,
    exists_and_left, exists_offset_iff]
  tauto

theorem linePoints_row (x1 y x2 : Int) :
    linePoints x1 y x2 y =
      (List.range ((x2 - x1).natAbs + 1)).map fun (k : Nat) => (x1 + lineDir x1 x2 * k, y) := by
  rw [linePoints_eq le_rfl, sub_self, Int.natAbs_zero, max_eq_left (Nat.zero_le _)]
  refine List.map_congr_left fun k hk => ?_
  rw [List.mem_range] at hk
  unfold linePoint
  split
  · simp [minorSteps_of_zero]
  · obtain rfl : k = 0 := by omega
    simp [minorSteps_of_zero]

theorem mem_linePoints_row {x1 y x2 px py : Int} :
    (px, py) ∈ linePoints x1 y x2 y ↔ py = y ∧ min x1 x2 ≤ px ∧ px ≤ max x1 x2 := by
  simp only [linePoints_row, List.mem_map, List.mem_range, Prod.mk.injEq]
  unfold lineDir
  constructor
  · rintro ⟨k, hk, rfl, rfl⟩
    split <;> omega
  · exact fun h => ⟨(px - x1).natAbs, by split <;> omega⟩

theorem linePoints_rightward (x y : Int) {len : Nat} (hl : 1 ≤ len) :
    linePoints x y (x + len - 1) y = rowPoints x y len := by
  rw [linePoints_row, show (x + len - 1 - x).natAbs + 1 = len by omega]
  refine List.map_congr_left fun k hk => Prod.ext ?_ rfl
  rw [List.mem_range] at hk
  unfold lineDir
  dsimp only
  split <;> omega

theorem linePoints_downward (x y : Int) {len : Nat} (hl : 1 ≤ len) :
    linePoints x y x (y + len - 1) = columnPoints x y len := by
  rw [linePoints_eq (by omega), sub_self, Int.natAbs_zero, max_eq_right (Nat.zero_le _),
    show (y + len - 1 - y).natAbs + 1 = len by omega]
  refine List.map_congr_left fun k _ => ?_
  rw [linePoint, sub_self, Int.natAbs_zero, if_neg (Nat.not_lt_zero _)]
  simp [minorSteps_of_zero]

/-- The points of a LINE and of the LINE with its endpoints exchanged are the same (R164 (a)). -/
theorem mem_linePoints_swap {x1 y1 x2 y2 px py : Int} :
    (px, py) ∈ linePoints x1 y1 x2 y2 ↔ (px, py) ∈ linePoints x2 y2 x1 y1 := by
  rcases lt_trichotomy y1 y2 with hy | rfl | hy
  · rw [linePoints_swap hy]
  · rw [mem_linePoints_row, mem_linePoints_row, min_comm, max_comm]
  · rw [linePoints_swap hy]

/-! ### Points drawn with role 1 (R160) -/

/-- The points of the list plotted with role 1, in order. -/
def State.stroke (s : State) (points : List (Int × Int)) : State :=
  s.plotAll (points.map fun p => (p.1, p.2, Role.role1))

theorem State.stroke_fb (s : State) (points : List (Int × Int)) {qx qy : Int}
    (hq : onScreen qx qy = true) :
    (s.stroke points).fb qx qy =
      if (qx, qy) ∈ points then (s.remap .role1).getD (s.fb qx qy) else s.fb qx qy := by
  split
  · rename_i hm
    refine State.plotAll_fb_of_mem hq ⟨_, List.mem_map_of_mem hm, rfl, rfl⟩ ?_
    exact List.forall_mem_map.2 fun _ _ _ _ => rfl
  · rename_i hm
    refine State.plotAll_fb_of_not_mem hq (List.forall_mem_map.2 fun p hp he => hm ?_)
    rwa [← he.1, ← he.2]

theorem State.pixelAt_stroke (s : State) (points : List (Int × Int)) {px py : Nat} (hx : px < 160)
    (hy : py < 160) :
    pixelAt (s.stroke points).finish px py =
      if ((px : Int), (py : Int)) ∈ points then inked s 0 (pixelAt s px py) else pixelAt s px py := by
  rw [pixelAt_finish, pixelAt_eq, pixelAt_eq, s.stroke_fb points (onScreen_natCast hx hy)]
  split
  · exact inked_eq s .role1 _
  · rfl

theorem State.onlyDrew_stroke (s : State) (points : List (Int × Int)) :
    onlyDrew s (s.stroke points).finish := Draws_onlyDrew (Draws.plotAll s _)

/-- A loop of strokes over the on-screen offsets strokes as the loop over all of them (R162, R163). -/
theorem State.stroke_clip (s : State) (o : Int) (len : Nat) (point : Nat → Int × Int)
    (h : ∀ k, visible (point k) → 0 ≤ o + k ∧ o + k ≤ 159) :
    s.plotAll ((clip o len).map fun k => ((point k).1, (point k).2, Role.role1)) =
      s.stroke ((List.range len).map point) := by
  rw [State.stroke, State.plotAll, State.plotAll, List.map_map, List.foldl_map, List.foldl_map]
  exact foldl_clip len s fun t k hk => t.plot_of_not_visible (fun hv => hk (h k hv)) _

theorem exec_line_eq (x1 y1 x2 y2 : Int) (s : State) :
    exec (.line x1 y1 x2 y2) s = s.accept fun t => (t.stroke (linePoints x1 y1 x2 y2)).finish := rfl

theorem exec_hline_eq (x y : Int) (len : Nat) (s : State) :
    exec (.hline x y len) s = s.accept fun t => (t.stroke (rowPoints x y len)).finish := by
  have h (t : State) := t.stroke_clip x len (fun k => (x + k, y)) fun k hv => by
    simp only [visible] at hv
    omega
  simp only [exec, execHline, rowPoints, h]

theorem exec_vline_eq (x y : Int) (len : Nat) (s : State) :
    exec (.vline x y len) s = s.accept fun t => (t.stroke (columnPoints x y len)).finish := by
  have h (t : State) := t.stroke_clip y len (fun k => (x, y + k)) fun k hv => by
    simp only [visible] at hv
    omega
  simp only [exec, execVline, columnPoints, h]

end Sys2Proof.Machine

namespace Sys2Proof.Proofs

open Sys2Proof Sys2Proof.Machine Sys2Proof.Claims

/-- Settles O30 (R160, R161): LINE strokes its points. -/
theorem lineDrawsItsPoints : Obligations.LineDrawsItsPoints := by
  intro s x1 y1 x2 y2 hf
  rw [exec_line_eq]
  refine ⟨_, State.accept_of_clear hf _, s.onlyDrew_stroke _, fun px py hx hy => ?_⟩
  rw [s.pixelAt_stroke _ hx hy]
  exact ⟨fun hm => if_pos hm, fun hm => if_neg hm⟩

/-- Settles O31 (R161, R164 (b)): the loop's points, the endpoints exchanged where y1 > y2. -/
theorem linePointsConnectTheEndpoints : Obligations.LinePointsConnectTheEndpoints := by
  intro x1 y1 x2 y2
  rcases le_or_gt y1 y2 with hy | hy
  · rw [if_neg (not_lt.2 hy), if_neg (not_lt.2 hy)]
    exact linePoints_connect hy
  · rw [if_pos hy, if_pos hy, linePoints_swap hy, ← Int.natAbs_neg (x2 - x1),
      ← Int.natAbs_neg (y2 - y1), neg_sub, neg_sub]
    exact linePoints_connect hy.le

/-- Settles O33 (R164 (a)): both strokes have the same points. -/
theorem lineIsSymmetric : Obligations.LineIsSymmetric := by
  intro s x1 y1 x2 y2 hf
  rw [exec_line_eq, exec_line_eq]
  refine ⟨_, _, State.accept_of_clear hf _, State.accept_of_clear hf _, fun px py hx hy => ?_⟩
  rw [s.pixelAt_stroke _ hx hy, s.pixelAt_stroke _ hx hy]
  simp only [mem_linePoints_swap (x1 := x1)]

/-- Settles O34 (R164 (c)): the two commands stroke one list of points. -/
theorem straightLinesAreHlineAndVline : Obligations.StraightLinesAreHlineAndVline := by
  intro s x y len hl
  rw [exec_line_eq, exec_line_eq, exec_hline_eq, exec_vline_eq, linePoints_rightward x y hl,
    linePoints_downward x y hl]
  exact ⟨rfl, rfl⟩

/-- Settles O35 (R160, R162): HLINE strokes the points of its row. -/
theorem hlineDraws : Obligations.HlineDraws := by
  intro s x y len hf
  rw [exec_hline_eq]
  refine ⟨_, State.accept_of_clear hf _, s.onlyDrew_stroke _, fun px py hx hy => ?_⟩
  simp only [s.pixelAt_stroke _ hx hy, mem_rowPoints]

/-- Settles O36 (R160, R163): VLINE strokes the points of its column. -/
theorem vlineDraws : Obligations.VlineDraws := by
  intro s x y len hf
  rw [exec_vline_eq]
  refine ⟨_, State.accept_of_clear hf _, s.onlyDrew_stroke _, fun px py hx hy => ?_⟩
  simp only [s.pixelAt_stroke _ hx hy, mem_columnPoints]

/-- Settles O56 (R161): point `k` is `linePoint`, whose steps along the shorter axis are the least that
keep the error term's sign. -/
theorem linePointsHaveAClosedForm : Obligations.LinePointsHaveAClosedForm := by
  intro x1 y1 x2 y2
  refine ⟨linePoints_swap, fun hy => ⟨fun hd k hk => ?_, fun hd k hk => ?_⟩⟩
  · refine ⟨_, ?_, minorSteps_least _ hk⟩
    rw [linePoints_eq hy, max_eq_left hd.le, List.getElem?_map,
      List.getElem?_range (Nat.lt_succ_of_le hk), Option.map_some, linePoint, if_pos hd]
    rfl
  · refine ⟨_, ?_, minorSteps_least _ hk⟩
    rw [linePoints_eq hy, max_eq_right hd, List.getElem?_map,
      List.getElem?_range (Nat.lt_succ_of_le hk), Option.map_some, linePoint, if_neg (not_lt.2 hd)]
    rfl

/-- Settles O32 (R161, 95_test_vectors.md V22): the loop is evaluated on the four lines. -/
theorem lineTieBreaks : Obligations.LineTieBreaks := by
  unfold Obligations.LineTieBreaks
  decide

end Sys2Proof.Proofs
end

section
/-! PROOFS. 43_shapes.md: the body test of OVAL (R177), the points that RECT and OVAL draw (R176, R178),
and the picture of a shape whose outline has role 1 and whose fill has role 2 (R175). -/

namespace Sys2Proof.Machine

open Sys2Proof Sys2Proof.Claims

/-! ### The tests of the two shapes (R176 to R178) -/

theorem rectOutline_iff {x y px py : Int} {w h : Nat} :
    rectOutline x y w h px py = true ↔ onRing x y w h px py := by
  simp [rectOutline, onRing, or_assoc]

theorem ovalInside_iff {x y px py : Int} {w h : Nat} :
    ovalInside x y w h px py = true ↔ inEllipse x y w h px py := by
  simp only [ovalInside, inEllipse, Bool.and_eq_true, decide_eq_true_eq, and_assoc, sq,
    mul_assoc]

/-- A body pixel is on the outline exactly when it is not fill (R178). -/
theorem ovalOutline_iff {x y px py : Int} {w h : Nat} (hb : inEllipse x y w h px py) :
    ovalOutline x y w h px py = true ↔ ¬ inEllipseFill x y w h px py := by
  simp only [ovalOutline, inEllipseFill, hb, true_and, Bool.not_eq_true', ← Bool.not_eq_true,
    Bool.and_eq_true, ovalInside_iff, and_assoc]

/-! ### The body lies in the box (R177, R179 (b)) -/

/-- Exchanging the axes exchanges the two terms of the inequality. -/
theorem inEllipse_swap {x y px py : Int} {w h : Nat} :
    inEllipse x y w h px py ↔ inEllipse y x h w py px := by
  unfold inEllipse
  rw [and_left_comm, add_comm, mul_comm ((w : Int) ^ 2)]

/-- A body pixel has X * X * h * h ≤ w * w * h * h, so |X| ≤ w and its column is one of the box. -/
theorem column_of_inEllipse {x y px py : Int} {w h : Nat} (hb : inEllipse x y w h px py) :
    x ≤ px ∧ px ≤ x + w - 1 := by
  obtain ⟨-, hh, hle⟩ := hb
  have hpos : (0 : Int) < (h : Int) ^ 2 := by positivity
  have hsq : (2 * (px - x) + 1 - w) ^ 2 ≤ (w : Int) ^ 2 :=
    le_of_mul_le_mul_right ((le_add_of_nonneg_right (by positivity)).trans hle) hpos
  obtain ⟨hl, hr⟩ := abs_le_of_sq_le_sq' hsq (Int.natCast_nonneg w)
  omega

theorem inBox_of_inEllipse {x y px py : Int} {w h : Nat} (hb : inEllipse x y w h px py) :
    inBox x y w h px py := by
  obtain ⟨hl, hr⟩ := column_of_inEllipse hb
  obtain ⟨ht, hd⟩ := column_of_inEllipse (inEllipse_swap.1 hb)
  exact ⟨hl, hr, ht, hd⟩

/-! ### The points drawn (R176, R178) -/

theorem visible_natCast {px py : Nat} (hx : px < 160) (hy : py < 160) :
    visible ((px : Int), (py : Int)) :=
  visible_iff_onScreen.2 (onScreen_natCast hx hy)

theorem mem_boxPixels_iff {x y px py : Int} {w h : Nat} :
    (px, py) ∈ boxPixels x y w h ↔ inBox x y w h px py ∧ visible (px, py) := by
  refine ⟨mem_boxPixels, fun ⟨hb, hv⟩ => ?_⟩
  simp only [inBox, visible] at hb hv
  have hi : (px - x).toNat ∈ clip x w := mem_clip.2 (by omega)
  have hj : (py - y).toNat ∈ clip y h := mem_clip.2 (by omega)
  refine List.mem_flatMap.2 ⟨_, hj, List.mem_map.2 ⟨_, hi, Prod.ext ?_ ?_⟩⟩ <;> dsimp only <;> omega

/-- The on-screen body pixels of OVAL (R178). -/
def bodyPixels (x y : Int) (w h : Nat) : List (Int × Int) :=
  (boxPixels x y w h).filter fun p => ovalInside x y w h p.1 p.2

theorem mem_bodyPixels_iff {x y px py : Int} {w h : Nat} :
    (px, py) ∈ bodyPixels x y w h ↔ inEllipse x y w h px py ∧ visible (px, py) := by
  rw [bodyPixels, List.mem_filter, mem_boxPixels_iff, ovalInside_iff]
  exact ⟨fun ⟨⟨_, hv⟩, hb⟩ => ⟨hb, hv⟩, fun ⟨hb, hv⟩ => ⟨⟨inBox_of_inEllipse hb, hv⟩, hb⟩⟩

/-! ### A shape drawn with an outline and a fill (R175) -/

/-- The points of the list plotted in order: those of the outline with role 1, the others with
role 2. -/
def State.drawShape (s : State) (points : List (Int × Int)) (outline : Int → Int → Bool) : State :=
  s.plotAll (points.map fun p => (p.1, p.2, if outline p.1 p.2 then .role1 else .role2))

theorem State.onlyDrew_drawShape (s : State) (points : List (Int × Int))
    (outline : Int → Int → Bool) : onlyDrew s (s.drawShape points outline).finish :=
  Draws_onlyDrew (Draws.plotAll s _)

theorem State.drawShape_fb_of_mem (s : State) {points : List (Int × Int)}
    (outline : Int → Int → Bool) {qx qy : Int} (hq : onScreen qx qy = true)
    (hm : (qx, qy) ∈ points) :
    (s.drawShape points outline).fb qx qy =
      (s.remap (if outline qx qy then .role1 else .role2)).getD (s.fb qx qy) := by
  refine State.plotAll_fb_of_mem hq ⟨_, List.mem_map_of_mem hm, rfl, rfl⟩ ?_
  refine List.forall_mem_map.2 fun p _ hx hy => ?_
  dsimp only at hx hy ⊢
  rw [hx, hy]

theorem State.drawShape_fb_of_not_mem (s : State) {points : List (Int × Int)}
    (outline : Int → Int → Bool) {qx qy : Int} (hq : onScreen qx qy = true)
    (hm : (qx, qy) ∉ points) : (s.drawShape points outline).fb qx qy = s.fb qx qy := by
  refine State.plotAll_fb_of_not_mem hq (List.forall_mem_map.2 fun p hp he => hm ?_)
  rwa [← he.1, ← he.2]

section Picture

variable (s : State) {points : List (Int × Int)} {outline : Int → Int → Bool} {px py : Nat}
  (hx : px < 160) (hy : py < 160)
include hx hy

theorem State.pixelAt_drawShape_of_outline (hm : ((px : Int), (py : Int)) ∈ points)
    (ho : outline px py = true) :
    pixelAt (s.drawShape points outline).finish px py = inked s 0 (pixelAt s px py) := by
  rw [pixelAt_finish, pixelAt_eq, pixelAt_eq,
    s.drawShape_fb_of_mem outline (onScreen_natCast hx hy) hm, if_pos ho]
  exact inked_eq s .role1 _

theorem State.pixelAt_drawShape_of_fill (hm : ((px : Int), (py : Int)) ∈ points)
    (ho : ¬ outline px py = true) :
    pixelAt (s.drawShape points outline).finish px py = inked s 1 (pixelAt s px py) := by
  rw [pixelAt_finish, pixelAt_eq, pixelAt_eq,
    s.drawShape_fb_of_mem outline (onScreen_natCast hx hy) hm, if_neg ho]
  exact inked_eq s .role2 _

theorem State.pixelAt_drawShape_of_not_mem (hm : ((px : Int), (py : Int)) ∉ points) :
    pixelAt (s.drawShape points outline).finish px py = pixelAt s px py := by
  rw [pixelAt_finish, pixelAt_eq, pixelAt_eq,
    s.drawShape_fb_of_not_mem outline (onScreen_natCast hx hy) hm]

end Picture

theorem exec_rect_eq (x y : Int) (w h : Nat) (s : State) :
    exec (.rect x y w h) s =
      s.accept fun t => (t.drawShape (boxPixels x y w h) (rectOutline x y w h)).finish := rfl

theorem exec_oval_eq (x y : Int) (w h : Nat) (s : State) :
    exec (.oval x y w h) s =
      s.accept fun t => (t.drawShape (bodyPixels x y w h) (ovalOutline x y w h)).finish := rfl

end Sys2Proof.Machine

namespace Sys2Proof.Proofs

open Sys2Proof Sys2Proof.Machine Sys2Proof.Claims

/-- Settles O37 (R175, R176): RECT draws the shape of its box's on-screen points. -/
theorem rectDraws : Obligations.RectDraws := by
  intro s x y w h hf
  rw [exec_rect_eq]
  refine ⟨_, State.accept_of_clear hf _, s.onlyDrew_drawShape _ _, fun px py hx hy => ?_⟩
  have drawn (hb : inBox x y w h px py) : ((px : Int), (py : Int)) ∈ boxPixels x y w h :=
    mem_boxPixels_iff.2 ⟨hb, visible_natCast hx hy⟩
  refine ⟨fun hb ho => ?outline, fun hb ho => ?fill, fun hb => ?outside⟩
  case outline => exact s.pixelAt_drawShape_of_outline hx hy (drawn hb) (rectOutline_iff.2 ho)
  case fill => exact s.pixelAt_drawShape_of_fill hx hy (drawn hb) (mt rectOutline_iff.1 ho)
  case outside =>
    exact s.pixelAt_drawShape_of_not_mem hx hy fun hm => hb (mem_boxPixels_iff.1 hm).1

/-- Settles O38 (R175, R177, R178): OVAL draws the shape of its on-screen body pixels. -/
theorem ovalDraws : Obligations.OvalDraws := by
  intro s x y w h hf
  rw [exec_oval_eq]
  refine ⟨_, State.accept_of_clear hf _, s.onlyDrew_drawShape _ _, fun px py hx hy => ?_⟩
  have drawn (hb : inEllipse x y w h px py) : ((px : Int), (py : Int)) ∈ bodyPixels x y w h :=
    mem_bodyPixels_iff.2 ⟨hb, visible_natCast hx hy⟩
  refine ⟨fun hb ho => ?outline, fun hfill => ?fill, fun hb => ?outside⟩
  case outline =>
    exact s.pixelAt_drawShape_of_outline hx hy (drawn hb) ((ovalOutline_iff hb).2 ho)
  case fill =>
    exact s.pixelAt_drawShape_of_fill hx hy (drawn hfill.1)
      fun ho => (ovalOutline_iff hfill.1).1 ho hfill
  case outside =>
    exact s.pixelAt_drawShape_of_not_mem hx hy fun hm => hb (mem_bodyPixels_iff.1 hm).1

/-- Settles O39 (R177, R179 (b)): the body test multiplies out the inequality's squares, and the
inequality bounds both distances from the middle of the box. -/
theorem ovalBodyStaysInItsBox : Obligations.OvalBodyStaysInItsBox :=
  fun _ _ _ _ _ _ => ⟨ovalInside_iff, inBox_of_inEllipse⟩

end Sys2Proof.Proofs
end

section
/-! PROOFS. 44_text.md: the characters of TEXT and its cursor (R191, R192), the picture of the cells
(R193), and a string past 0xFFFF (R192, with the same check of TRACE and DISKW in 45_host_calls.md). -/

namespace Sys2Proof.Machine

open Sys2Proof Sys2Proof.Claims

/-! ### The cursor (R191) -/

section Cursor

variable (c : Nat → Byte)

/-- The column of the next cell after character `k`. -/
theorem column_succ (x : Int) (k : Nat) :
    x + 8 * cellsBefore c (k + 1) =
      if c k = 0x0A#8 then x else x + 8 * cellsBefore c k + 8 := by
  rw [cellsBefore]
  split
  · simp
  · push_cast
    ring

/-- The row of the next cell after character `k`. -/
theorem row_succ (y : Int) (k : Nat) :
    y + 8 * linesBefore c (k + 1) =
      if c k = 0x0A#8 then y + 8 * linesBefore c k + 8 else y + 8 * linesBefore c k := by
  rw [linesBefore]
  split
  · push_cast
    ring
  · rfl

/-- The cursor only goes on: to the next line, or to the right in its line. -/
theorem strictMono_cursor :
    StrictMono fun k => toLex (linesBefore c k, cellsBefore c k) := by
  refine strictMono_nat_of_lt_succ fun k => Prod.Lex.toLex_lt_toLex.2 ?_
  simp only [linesBefore, cellsBefore]
  split
  · exact .inl (Nat.lt_succ_self _)
  · exact .inr ⟨rfl, Nat.lt_succ_self _⟩

theorem cursor_injective {j k : Nat} (hl : linesBefore c j = linesBefore c k)
    (hc : cellsBefore c j = cellsBefore c k) : j = k :=
  (strictMono_cursor c).injective (by simp only [hl, hc])

end Cursor

/-- The cells of two characters have no pixel in common. -/
theorem cellPixel_injective {s : State} {ptr : Nat} {x y : Int} {j k row row' col col' : Nat}
    (hrow : row < 8) (hcol : col < 8) (hrow' : row' < 8) (hcol' : col' < 8)
    (h : cellPixel s ptr x y j row col = cellPixel s ptr x y k row' col') :
    j = k ∧ row = row' ∧ col = col' := by
  simp only [cellPixel, Prod.mk.injEq] at h
  have hl : linesBefore (charAt s ptr) j = linesBefore (charAt s ptr) k := by omega
  have hc : cellsBefore (charAt s ptr) j = cellsBefore (charAt s ptr) k := by omega
  exact ⟨cursor_injective _ hl hc, by omega, by omega⟩

/-- The first cell is at the operands of TEXT. -/
theorem cellPixel_zero {s : State} {ptr : Nat} {x y : Int} {row col : Nat} :
    cellPixel s ptr x y 0 row col = (x + col, y + row) := by
  simp [cellPixel, cellsBefore, linesBefore]

/-! ### One character (R191, R193) -/

/-- The role of a glyph pixel: ink role 1, paper role 2 (R193). -/
def glyphRole (c : Config) (code : Byte) (row col : Nat) : Role :=
  if fontBit c code row col then .role1 else .role2

theorem valueOf_glyphRole (c : Config) (code : Byte) (row col : Nat) :
    valueOf (glyphRole c code row col) = if fontBit c code row col then 0 else 1 := by
  unfold glyphRole
  split <;> rfl

theorem mem_glyphPlots_iff {c : Config} {code : Byte} {cx cy : Int} {p : Int × Int × Role} :
    p ∈ glyphPlots c code cx cy ↔
      ∃ row col : Nat, row < 8 ∧ col < 8 ∧ p = (cx + col, cy + row, glyphRole c code row col) := by
  simp only [glyphPlots, glyphRole, List.mem_flatMap, List.mem_map, List.mem_range,
    exists_and_left, eq_comm]

/-- The plots of one character: those of its glyph, none for a newline or an unsupported code. -/
def charPlots (c : Config) (code : Byte) (cx cy : Int) : List (Int × Int × Role) :=
  if code ≠ 0x0A#8 ∧ hasGlyph c code = true then glyphPlots c code cx cy else []

theorem glyphAt_iff {s : State} {ptr k : Nat} :
    glyphAt s ptr k ↔ charAt s ptr k ≠ 0x0A#8 ∧ hasGlyph s.cfg (charAt s ptr k) = true := by
  simp only [glyphAt, hasGlyph, Bool.and_eq_true, decide_eq_true_eq]

/-- TEXT's loop draws a character and moves the cursor (R192). -/
theorem textLoop_succ (x : Int) (n ptr : Nat) (cx cy : Int) (s : State) :
    textLoop x (n + 1) ptr cx cy s =
      textLoop x n (ptr + 1) (if s.srcByte ptr = 0x0A#8 then x else cx + 8)
        (if s.srcByte ptr = 0x0A#8 then cy + 8 else cy)
        (s.plotAll (charPlots s.cfg (s.srcByte ptr) cx cy)) := by
  unfold charPlots
  by_cases hnl : s.srcByte ptr = 0x0A#8
  · rw [textLoop_of_newline (h := hnl), if_pos hnl, if_pos hnl, if_neg fun h => h.1 hnl]
    rfl
  · rw [if_neg hnl, if_neg hnl]
    cases hg : hasGlyph s.cfg (s.srcByte ptr) with
    | true => rw [textLoop_of_glyph (h := hnl) (hg := hg), if_pos ⟨hnl, rfl⟩]
    | false =>
      rw [textLoop_of_no_glyph (h := hnl) (hg := hg), if_neg fun h => Bool.false_ne_true h.2]
      rfl

theorem textLoop_one (x : Int) (ptr : Nat) (cx cy : Int) (s : State) :
    textLoop x 1 ptr cx cy s = s.plotAll (charPlots s.cfg (s.srcByte ptr) cx cy) :=
  textLoop_succ x 0 ptr cx cy s

/-! ### Character by character (R192, 70_reset_and_hazards.md R262) -/

section Characters

variable {s : State} {ptr : Nat} {x y : Int} {c : Nat → Byte}

/-- TEXT's loop goes on, after `k` characters, in the state and at the cursor they left; `c` is what
it read on the way. -/
theorem textLoop_resume {k : Nat}
    (hc : ∀ j < k, (textLoop x j ptr x y s).srcByte (ptr + j) = c j) (n : Nat) :
    textLoop x (k + n) ptr x y s =
      textLoop x n (ptr + k) (x + 8 * cellsBefore c k) (y + 8 * linesBefore c k)
        (textLoop x k ptr x y s) := by
  induction k generalizing n with
  | zero => simp [cellsBefore, linesBefore, textLoop]
  | succ k ih =>
    have resume := ih fun j hj => hc j (Nat.lt_succ_of_lt hj)
    have last := resume 1
    rw [textLoop_one] at last
    rw [last, column_succ, row_succ, ← hc k (Nat.lt_succ_self k), add_assoc, add_comm 1 n, resume,
      textLoop_succ]
    rfl

/-- TEXT's loop over n + 1 characters draws the last as it stands after the first n. -/
theorem textLoop_succ_last {n : Nat}
    (hc : ∀ j < n, (textLoop x j ptr x y s).srcByte (ptr + j) = c j) :
    textLoop x (n + 1) ptr x y s =
      (textLoop x n ptr x y s).plotAll (charPlots s.cfg
        ((textLoop x n ptr x y s).srcByte (ptr + n)) (x + 8 * cellsBefore c n)
        (y + 8 * linesBefore c n)) := by
  rw [textLoop_resume hc, textLoop_one, (Draws.textLoop ..).cfg]

end Characters

/-! ### The picture of the cells (R193) -/

/-- The plots of the first `n` characters of a string as it stands in memory. -/
def textPlots (s : State) (ptr : Nat) (x y : Int) (n : Nat) : List (Int × Int × Role) :=
  (List.range n).flatMap fun k => charPlots s.cfg (charAt s ptr k)
    (x + 8 * cellsBefore (charAt s ptr) k) (y + 8 * linesBefore (charAt s ptr) k)

theorem mem_textPlots_iff {s : State} {ptr n : Nat} {x y px py : Int} {r : Role} :
    (px, py, r) ∈ textPlots s ptr x y n ↔
      ∃ k row col, k < n ∧ row < 8 ∧ col < 8 ∧ glyphAt s ptr k ∧
        cellPixel s ptr x y k row col = (px, py) ∧
        r = glyphRole s.cfg (charAt s ptr k) row col := by
  simp only [textPlots, charPlots, ← glyphAt_iff, List.mem_flatMap, List.mem_range,
    List.mem_ite_nil_right, mem_glyphPlots_iff, cellPixel, Prod.mk.injEq]
  constructor
  · rintro ⟨k, hk, hg, row, col, hrow, hcol, rfl, rfl, rfl⟩
    exact ⟨k, row, col, hk, hrow, hcol, hg, ⟨rfl, rfl⟩, rfl⟩
  · rintro ⟨k, row, col, hk, hrow, hcol, hg, ⟨rfl, rfl⟩, rfl⟩
    exact ⟨k, hk, hg, row, col, hrow, hcol, rfl, rfl, rfl⟩

/-- While TEXT reads each character as it stands in memory before it draws, it draws their plots. -/
theorem textLoop_eq_textPlots {s : State} {ptr n : Nat} {x y : Int}
    (hc : ∀ j < n, (textLoop x j ptr x y s).srcByte (ptr + j) = charAt s ptr j) :
    textLoop x n ptr x y s = s.plotAll (textPlots s ptr x y n) := by
  induction n with
  | zero => rfl
  | succ n ih =>
    have hc' : ∀ j < n, _ := fun j hj => hc j (Nat.lt_succ_of_lt hj)
    rw [textLoop_succ_last hc', hc n (Nat.lt_succ_self n), ih hc', ← s.plotAll_append, textPlots,
      textPlots, List.range_succ, List.flatMap_append, List.flatMap_singleton]

/-- Outside the framebuffer TEXT reads what stood there before it drew (R132). -/
theorem textLoop_srcByte_outside {s : State} {a : Nat} (ha : a < 0xA0 ∨ 0x199F < a) (x : Int)
    (n ptr : Nat) (cx cy : Int) : (textLoop x n ptr cx cy s).srcByte a = s.readByte a :=
  (Draws.textLoop x n ptr cx cy s).agrees a ha

section Picture

variable (s : State) {ps : List (Int × Int × Role)} {px py : Nat} (hx : px < 160) (hy : py < 160)
include hx hy

theorem State.pixelAt_plotAll_of_mem {r : Role} (hm : ((px : Int), (py : Int), r) ∈ ps)
    (hr : ∀ r', ((px : Int), (py : Int), r') ∈ ps → r' = r) :
    pixelAt (s.plotAll ps) px py = inked s (valueOf r) (pixelAt s px py) := by
  rw [pixelAt_eq, pixelAt_eq, State.plotAll_fb_of_mem (onScreen_natCast hx hy) ⟨_, hm, rfl, rfl⟩
    fun p hp hpx hpy => hr p.2.2 (by rwa [← hpx, ← hpy])]
  exact inked_eq s r _

theorem State.pixelAt_plotAll_of_not_mem (hm : ∀ r, ((px : Int), (py : Int), r) ∉ ps) :
    pixelAt (s.plotAll ps) px py = pixelAt s px py := by
  rw [pixelAt_eq, pixelAt_eq, State.plotAll_fb_of_not_mem (onScreen_natCast hx hy)]
  rintro p hp ⟨hpx, hpy⟩
  exact hm p.2.2 (by rwa [← hpx, ← hpy])

variable {ptr n : Nat} {x y : Int}

theorem pixelAt_textPlots_of_cell {k row col : Nat} (hk : k < n) (hrow : row < 8) (hcol : col < 8)
    (hg : glyphAt s ptr k) (hp : cellPixel s ptr x y k row col = ((px : Int), (py : Int))) :
    pixelAt (s.plotAll (textPlots s ptr x y n)) px py =
      inked s (if fontBit s.cfg (charAt s ptr k) row col then 0 else 1) (pixelAt s px py) := by
  rw [← valueOf_glyphRole]
  refine s.pixelAt_plotAll_of_mem hx hy
    (mem_textPlots_iff.2 ⟨k, row, col, hk, hrow, hcol, hg, hp, rfl⟩) fun r' hr' => ?_
  obtain ⟨k', row', col', -, hrow', hcol', -, hp', rfl⟩ := mem_textPlots_iff.1 hr'
  obtain ⟨rfl, rfl, rfl⟩ := cellPixel_injective hrow' hcol' hrow hcol (hp'.trans hp.symm)
  rfl

theorem pixelAt_textPlots_of_no_cell
    (h : ∀ k row col, k < n → row < 8 → col < 8 → glyphAt s ptr k →
      cellPixel s ptr x y k row col ≠ ((px : Int), (py : Int))) :
    pixelAt (s.plotAll (textPlots s ptr x y n)) px py = pixelAt s px py := by
  refine s.pixelAt_plotAll_of_not_mem hx hy fun r hm => ?_
  obtain ⟨k, row, col, hk, hrow, hcol, hg, hp, -⟩ := mem_textPlots_iff.1 hm
  exact h k row col hk hrow hcol hg hp

end Picture

/-! ### TEXT in two parts (R262) -/

theorem Draws.fault {s t : State} (h : Draws s t) : t.fault = s.fault := by rw [h.eq]; rfl

theorem State.plot_finish (s : State) (px py : Int) (k : Role) :
    s.finish.plot px py k = (s.plot px py k).finish := by
  have hremap : s.finish.remap k = s.remap k := rfl
  simp only [State.plot, hremap]
  split
  · rfl
  · unfold State.putPixel
    split <;> rfl

/-- No plot reads the port's answer. -/
theorem State.plotAll_finish (s : State) (ps : List (Int × Int × Role)) :
    s.finish.plotAll ps = (s.plotAll ps).finish :=
  List.foldl_hom State.finish fun t p => t.plot_finish p.1 p.2.1 p.2.2

section Commands

variable {s : State} (hf : s.fault.set = false) {ptr n : Nat}
include hf

theorem charRead_eq (hr : ptr + n ≤ 0x10000) (x y : Int) :
    charRead s ptr x y n = (textLoop x n ptr x y s).srcByte (ptr + n) := by
  rw [charRead, exec_text_of_clear hf (.inr hr)]
  rfl

/-- TEXT of one character, run where TEXT of the first n has answered done. -/
theorem exec_text_last (hr : ptr + (n + 1) ≤ 0x10000) (x y : Int) :
    exec (.text (ptr + n) 1 (x + 8 * cellsBefore (charRead s ptr x y) n)
        (y + 8 * linesBefore (charRead s ptr x y) n)) (textLoop x n ptr x y s).finish =
      .next (textLoop x (n + 1) ptr x y s).finish := by
  have hdrew := Draws.textLoop x n ptr x y s
  have hclear : (textLoop x n ptr x y s).finish.fault.set = false :=
    (congrArg FaultLatch.set hdrew.fault).trans hf
  have hc : ∀ j < n, (textLoop x j ptr x y s).srcByte (ptr + j) = charRead s ptr x y j :=
    fun j hj => (charRead_eq hf (by omega) x y).symm
  rw [exec_text_of_clear hclear (.inr (by omega)), textLoop_one, State.plotAll_finish,
    State.finish_cfg, hdrew.cfg, textLoop_succ_last hc]
  rfl

end Commands

/-! ### Bytes past 0xFFFF (R192, 45_host_calls.md R206, R208) -/

theorem stringFault_of_above {ptr n : Nat} (hn : 1 ≤ n) (h : 0x10000 < ptr + n) :
    stringFault ptr n = some (max ptr 0x10000) :=
  if_pos ⟨hn, by omega⟩

/-- A 32-bit address is its own fault info (60_exceptions.md R222). -/
theorem infoOf_of_fits {a : Nat} (h : a < 2 ^ 32) : infoOf a = BitVec.ofNat 32 a :=
  congrArg _ (min_eq_left (by omega))

section Faults

variable {s : State} (hf : s.fault.set = false) {ptr n a : Nat}
include hf

theorem exec_text_of_above (h : stringFault ptr n = some a) (x y : Int) :
    exec (.text ptr n x y) s = .next (faulted s 4#8 (infoOf a)) := by
  simp only [exec, execText, State.accept_of_clear hf, h, raise_eq_faulted hf, faultNumber]

theorem exec_trace_of_above (h : stringFault ptr n = some a) :
    exec (.trace ptr n) s = .next (faulted s 4#8 (infoOf a)) := by
  simp only [exec, execTrace, State.accept_of_clear hf, h, raise_eq_faulted hf, faultNumber]

theorem exec_diskw_of_above (h : stringFault ptr (diskWriteCount s n) = some a) :
    exec (.diskw ptr n) s = .next (faulted s 4#8 (infoOf a)) := by
  simp only [exec, execDiskw, State.accept_of_clear hf, h, raise_eq_faulted hf, faultNumber]

end Faults

end Sys2Proof.Machine

namespace Sys2Proof.Proofs

open Sys2Proof Sys2Proof.Machine Sys2Proof.Claims

/-- Settles O42 (R192, 45_host_calls.md R206, R208, 60_exceptions.md R222): the three commands make the
same range check, and the address it reports fits the fault's info. -/
theorem stringPastMemoryRaisesSrcRange : Obligations.StringPastMemoryRaisesSrcRange := by
  intro s ptr n x y hf hptr
  rw [← infoOf_of_fits (a := max ptr 0x10000) (by omega)]
  refine ⟨fun hn h => ?_, fun hn h => exec_diskw_of_above hf (stringFault_of_above hn h)⟩
  have habove := stringFault_of_above hn h
  exact ⟨exec_text_of_above hf habove x y, exec_trace_of_above hf habove⟩

/-- Settles O40 (R191 to R193): TEXT reads each byte as it stood, so it draws the plots of the string,
and no two cells share a pixel. -/
theorem textDrawsItsGlyphs : Obligations.TextDrawsItsGlyphs := by
  intro s ptr len x y hf hr
  refine ⟨_, exec_text_of_clear hf (hr.imp_right And.left) x y, Draws_onlyDrew (Draws.textLoop ..),
    fun px py hx hy => ?_⟩
  rw [pixelAt_finish, textLoop_eq_textPlots fun j hj => textLoop_srcByte_outside (by omega) ..]
  exact ⟨fun k row col => pixelAt_textPlots_of_cell s hx hy, pixelAt_textPlots_of_no_cell s hx hy⟩

/-- Settles O41 (R191 to R193, 70_reset_and_hazards.md R262): the loop only draws; one character is read
before anything is drawn; and the loop over n + 1 characters ends in the plots of the last. -/
theorem textCompletesOverAnySource : Obligations.TextCompletesOverAnySource := by
  intro s ptr len x y hf
  refine ⟨fun hr => ?completes, fun hr => ?oneCharacter, fun n hr => ?lastCharacter⟩
  case completes =>
    exact ⟨_, exec_text_of_clear hf hr x y, Draws_onlyDrew (Draws.textLoop ..)⟩
  case oneCharacter =>
    refine ⟨_, exec_text_of_clear hf (.inr (by omega)) x y, Draws_onlyDrew (Draws.textLoop ..),
      fun px py hx hy => ?_⟩
    rw [pixelAt_finish, textLoop_eq_textPlots fun j hj => by rw [Nat.lt_one_iff.1 hj]; rfl]
    refine ⟨fun row col hrow hcol hg hp => ?inCell, fun h => ?outside⟩
    case inCell =>
      rw [← cellPixel_zero] at hp
      exact pixelAt_textPlots_of_cell s hx hy (k := 0) Nat.zero_lt_one hrow hcol hg hp
    case outside =>
      refine pixelAt_textPlots_of_no_cell s hx hy fun k row col hk hrow hcol hg => ?_
      obtain rfl := Nat.lt_one_iff.1 hk
      rw [cellPixel_zero]
      exact h row col hrow hcol hg
  case lastCharacter =>
    exact ⟨_, _, exec_text_of_clear hf (.inr (by omega)) x y, exec_text_last hf hr x y,
      exec_text_of_clear hf (.inr hr) x y⟩

end Sys2Proof.Proofs
end

section
/-! PROOFS. 45_host_calls.md: the events of TONE and TRACE (R201, R208), and the blob through DISKR and
DISKW (R205 to R207). -/

namespace Sys2Proof.Machine

open Sys2Proof Sys2Proof.Claims

/-! ### The bytes of a transfer (R205, R206) -/

theorem Memory.read_writeBytes_inside (m : Memory) {a k : Nat} {vs : List Byte}
    (hk : k < vs.length) (hend : a + vs.length ≤ 0x10000) :
    (m.writeBytes a vs).read (a + k) = vs.getD k 0#8 := by
  rw [Memory.read_writeBytes, if_pos (by omega), Nat.add_sub_cancel_left]
  rfl

theorem Memory.read_writeBytes_outside (m : Memory) {a b : Nat} {vs : List Byte}
    (h : b < a ∨ a + vs.length ≤ b) : (m.writeBytes a vs).read b = m.read b := by
  rw [Memory.read_writeBytes, if_neg (by omega)]

theorem getD_take_of_lt {vs : List Byte} {r k : Nat} (hk : k < r) :
    (vs.take r).getD k 0#8 = vs.getD k 0#8 := by simp [hk]

theorem State.srcBytes_length (s : State) (ptr n : Nat) : (s.srcBytes ptr n).length = n :=
  s.mem.readBytes_length ptr n

theorem State.srcBytes_getD (s : State) {ptr n k : Nat} (hk : k < n) :
    (s.srcBytes ptr n).getD k 0#8 = s.readByte (ptr + k) :=
  Memory.readBytes_getD hk

/-- A DISKR whose bytes do not all lie in 0x00A0 to 0xFFFF faults (R205). -/
theorem exec_diskr_of_outside {s : State} (hf : s.fault.set = false) {ptr count : Nat}
    (h : dstOutside ptr (diskReadCount s count) = true) :
    exec (.diskr ptr count) s = .next (faulted s 5#8 (infoOf ptr)) := by
  simp only [exec, execDiskr, State.accept_of_clear hf, h, if_true, raise_eq_faulted hf,
    faultNumber]

theorem eq_ofNat_of_toNat_eq {r : Word} {n : Nat} (h : r.toNat = n) : r = BitVec.ofNat 32 n := by
  rw [← h, BitVec.ofNat_toNat, BitVec.setWidth_eq]

end Sys2Proof.Machine

namespace Sys2Proof.Proofs

open Sys2Proof Sys2Proof.Machine Sys2Proof.Claims

/-- Settles O43 (R201): the command word fixes the count and the form, and TONE's meaning is to emit. -/
theorem toneForwardsItsWords : Obligations.ToneForwardsItsWords :=
  ⟨⟨rfl, fun _ => rfl⟩, fun _ _ _ _ _ hf => exec_tone_of_clear hf ..⟩

/-- Settles O48 (R208): the event holds the source bytes at `ptr`. -/
theorem traceForwardsTheString : Obligations.TraceForwardsTheString :=
  fun s ptr len hf hr =>
    ⟨_, exec_trace_of_clear hf hr, s.srcBytes_length ptr len, fun _ => s.srcBytes_getD⟩

/-- Settles O44 (R205): DISKR makes one store of the first r bytes of the blob. -/
theorem diskrCopiesTheBlob : Obligations.DiskrCopiesTheBlob := by
  intro s ptr count hf hcount hr
  have hlen : (s.disk.take (diskReadCount s count)).length = min count s.disk.length :=
    List.length_take_of_le (Nat.min_le_right _ _)
  refine ⟨_, exec_diskr_of_clear hf (dstOutside_eq_false_iff.2 hr), rfl, ?result,
    fun k hk => ?inside, fun a ha => ?outside⟩
  case result =>
    exact ⟨_, rfl, Nat.mod_eq_of_lt ((Nat.min_le_left _ _).trans_lt hcount)⟩
  case inside =>
    exact (s.mem.read_writeBytes_inside (by omega) (by omega)).trans (getD_take_of_lt hk)
  case outside => exact s.mem.read_writeBytes_outside (by omega)

/-- Settles O45 (R205, 60_exceptions.md R222): the range check fails, and `ptr` fits the fault's info. -/
theorem diskrOutsideRaisesDstRange : Obligations.DiskrOutsideRaisesDstRange := by
  intro s ptr count hf hptr hr hout
  rw [← infoOf_of_fits hptr]
  refine exec_diskr_of_outside hf (Bool.eq_true_of_not_eq_false fun hin => ?_)
  have := dstOutside_eq_false_iff.1 hin
  simp only [diskReadCount] at this
  omega

/-- Settles O46 (R206): the new blob is the source bytes at `ptr`. -/
theorem diskwReplacesTheBlob : Obligations.DiskwReplacesTheBlob :=
  fun s ptr _ hf hcount hr =>
    ⟨_, _, exec_diskw_of_clear hf hr, Nat.mod_eq_of_lt ((Nat.min_le_left _ _).trans_lt hcount),
      s.srcBytes_length ptr _, fun _ => s.srcBytes_getD⟩

/-- Settles O47 (R207): DISKW leaves a blob of n bytes (O46), so that DISKR copies all of it (O44). -/
theorem diskRoundTrip : Obligations.DiskRoundTrip := by
  intro s src dst n hf hn hcap hsrc hlo hhi
  obtain ⟨d, r, hw, hr, hlen, hd⟩ := diskwReplacesTheBlob s src n hf hn (.inr (by omega))
  rw [Nat.min_eq_left hcap] at hr hlen hd
  have hcount : min n d.length = n := by rw [hlen, Nat.min_self]
  obtain ⟨t, ht, -, ⟨r', hanswer, hr'⟩, hbytes, -⟩ :=
    diskrCopiesTheBlob ((s.setDisk d).answerCart (.result r)) dst n hf hn
      (.inr ⟨hlo, hcount.symm ▸ hhi⟩)
  rw [State.answerCart_disk, State.setDisk_disk, hcount] at hr' hbytes
  refine ⟨_, t, hw, ht, ?_, ?_, fun k hk => (hbytes k hk).trans (hd k hk)⟩
  · rw [State.answerCart_cpAnswer, eq_ofNat_of_toNat_eq hr]
  · rw [hanswer, eq_ofNat_of_toNat_eq hr']

end Sys2Proof.Proofs
end

section
/-! PROOFS. 60_exceptions.md: what a faulted block does not accept (R228, decision D23), and the host
operations HReadFault and HCallback (R238). -/

namespace Sys2Proof.Machine

open Sys2Proof

/-! ### The latch each port asks first (R228) -/

/-- No command acts outside `State.accept`, which asks for FAULT.set (60_exceptions.md R228). -/
theorem exec_eq_accept (i : Instr) (s : State) : ∃ run, exec i s = s.accept run := by
  unfold exec
  cases i <;> exact ⟨_, rfl⟩

theorem State.perform_of_clear {s : State} (hf : s.fault.set = false) (run : State → State) :
    s.perform run = .next (run s) := State.perform_next.2 ⟨hf, rfl⟩

section Faulted

variable {s : State} (hf : s.fault.set = true)
include hf

theorem exec_of_set (i : Instr) : exec i s = .fault .commandNotAccepted := by
  obtain ⟨run, hrun⟩ := exec_eq_accept i s
  rw [hrun, State.accept_of_set hf]

theorem issueCommand_of_set (cmd : Word) (ops : Operands) :
    issueCommand cmd ops s = .fault .commandNotAccepted := if_pos hf

theorem portVerdict_of_set (a : Nat) (n : Width) (k : Access) :
    portVerdict s.fault.set a n k = .notAccepted := if_pos hf

theorem cartRead_of_set (a : BitVec 16) (n : Width) :
    cartRead a n s = .fault .accessNotAccepted := by
  rw [cartRead, portVerdict_of_set hf]

theorem cartWrite_of_set (a : BitVec 16) (n : Width) (v : Word) :
    cartWrite a n v s = .fault .accessNotAccepted := by
  rw [cartWrite, portVerdict_of_set hf]

theorem State.perform_of_set (run : State → State) :
    s.perform run = .fault .hostOpNotPerformed := if_pos hf

end Faulted

end Sys2Proof.Machine

namespace Sys2Proof.Proofs

open Sys2Proof Sys2Proof.Machine

/-- Settles O18 (R228, R238, 70_reset_and_hazards.md R258): the host has the turn; HReadFault does not
ask for FAULT.set, and HCallback is performed because it is clear. -/
theorem readFaultAnswersAndCallbackOpens : Obligations.ReadFaultAnswersAndCallbackOpens := by
  intro s rest hc
  refine ⟨fun hread => ?readFault, fun body hcall hf => ?callback⟩
  case readFault => rw [step_host hc hread, hostStep, State.setHost_fault]
  case callback =>
    have clear : (s.setHost rest).fault.set = false := by rw [State.setHost_fault, hf]
    rw [step_host hc hcall, hostStep, State.perform_of_clear clear]

/-- Settles O19 (R228, decision D23): each operation asks for FAULT.set before anything else. -/
theorem faultedBlockAcceptsNothing : Obligations.FaultedBlockAcceptsNothing := by
  intro s hf
  refine ⟨?command, ?issue, ?read, ?write, ?input, ?frameStart, ?callback⟩
  case command => exact exec_of_set hf
  case issue => exact issueCommand_of_set hf
  case read => exact cartRead_of_set hf
  case write => exact cartWrite_of_set hf
  case input => exact fun _ _ _ _ _ _ _ => by rw [hostStep, State.perform_of_set hf]
  case frameStart => rw [hostStep, State.perform_of_set hf]
  case callback => exact fun _ => by rw [hostStep, State.perform_of_set hf]

end Sys2Proof.Proofs
end

section
/-! PROOFS. 70_reset_and_hazards.md: what HReset (R250), HInput (R255) and HFrameStart (R257) leave in
memory, register by register, and what HPresent answers (R259). -/

namespace Sys2Proof.Machine

open Sys2Proof

/-! ### A register after another one is written (10_state.md R24, R25) -/

theorem rowOf_mem (r : Reg) : rowOf r ∈ regTable := by cases r <;> decide

theorem reg_rowOf (r : Reg) : (rowOf r).reg = r := by cases r <;> rfl

/-- No two rows of the register table share a byte. -/
theorem rowOf_disjoint {r q : Reg} (h : r ≠ q) :
    (rowOf r).address + bytesOf (rowOf r).width ≤ (rowOf q).address ∨
      (rowOf q).address + bytesOf (rowOf q).width ≤ (rowOf r).address := by
  have apart : ∀ row ∈ regTable, ∀ row' ∈ regTable, row.reg ≠ row'.reg →
      row.address + bytesOf row.width ≤ row'.address ∨
        row'.address + bytesOf row'.width ≤ row.address := by decide
  exact apart _ (rowOf_mem r) _ (rowOf_mem q) (by rwa [reg_rowOf, reg_rowOf])

theorem Memory.readReg_writeReg (m : Memory) (q r : Reg) (v : Nat) :
    (m.writeReg q v).readReg r =
      if r = q then v % 256 ^ bytesOf (rowOf r).width else m.readReg r := by
  split
  case isTrue same => rw [same, Memory.readReg_writeReg_same]
  case isFalse other =>
    have apart := rowOf_disjoint other
    exact Memory.readLE_congr fun b hl hu => m.read_writeReg_outside v (by omega)

/-- Bytes stored above the register file leave every register. -/
theorem Memory.readReg_writeBytes_above (m : Memory) {a : Nat} (ha : 0x21 ≤ a) (vs : List Byte)
    (r : Reg) : (m.writeBytes a vs).readReg r = m.readReg r := by
  have bounds := rowOf_bounds r
  exact Memory.readLE_congr fun b _ hu => m.read_writeBytes_outside (by omega)

/-! ### A register as its bytes -/

theorem Memory.readReg_byte (m : Memory) {r : Reg} (hw : (rowOf r).width = .w1) :
    m.readReg r = (m.read (rowOf r).address).toNat := by
  simp [Memory.readReg, hw, bytesOf, Memory.readLE]

theorem Memory.ofNat_readReg_byte (m : Memory) {r : Reg} (hw : (rowOf r).width = .w1) :
    BitVec.ofNat 8 (m.readReg r) = m.read (rowOf r).address := by
  rw [m.readReg_byte hw, BitVec.ofNat_toNat, BitVec.setWidth_eq]

theorem Memory.readReg_pair (m : Memory) {r : Reg} (hw : (rowOf r).width = .w2) :
    m.readReg r =
      (m.read (rowOf r).address).toNat + 256 * (m.read ((rowOf r).address + 1)).toNat := by
  simp [Memory.readReg, hw, bytesOf, Memory.readLE]

theorem Memory.read_of_readReg {m : Memory} {r : Reg} (hw : (rowOf r).width = .w1) {b : Byte}
    (h : m.readReg r = b.toNat) : m.read (rowOf r).address = b :=
  BitVec.eq_of_toNat_eq ((m.readReg_byte hw).symm.trans h)

/-! ### HInput (R255) -/

/-- What each register holds after HInput. -/
def inputValue (m : Memory) (g1 g2 g3 g4 : Byte) (mx my : BitVec 16) (mb : Byte) : Reg → Nat
  | .gamepad1 => g1.toNat
  | .gamepad2 => g2.toNat
  | .gamepad3 => g3.toNat
  | .gamepad4 => g4.toNat
  | .mouseX => mx.toNat
  | .mouseY => my.toNat
  | .mouseButtons => mb.toNat
  | r => m.readReg r

theorem inputMemory_readReg (m : Memory) (g1 g2 g3 g4 : Byte) (mx my : BitVec 16) (mb : Byte)
    (r : Reg) : (inputMemory m g1 g2 g3 g4 mx my mb).readReg r =
      inputValue m g1 g2 g3 g4 mx my mb r := by
  cases r <;>
    simp (disch := omega) [inputMemory, inputValue, Memory.readReg_writeReg, rowOf, bytesOf,
      Nat.mod_eq_of_lt]

theorem hostStep_input_of_clear {s : State} (hf : s.fault.set = false) (g1 g2 g3 g4 : Byte)
    (mx my : BitVec 16) (mb : Byte) : hostStep (.input g1 g2 g3 g4 mx my mb) s =
      .next ((s.setMem (inputMemory s.mem g1 g2 g3 g4 mx my mb)).answerHost .done) := by
  rw [hostStep, State.perform_of_clear hf]

/-! ### HFrameStart (R257) -/

theorem State.systemFlags_eq_readByte (s : State) : s.systemFlags = s.readByte 0x1F :=
  s.mem.ofNat_readReg_byte rfl

theorem State.preservesFramebuffer_iff (s : State) :
    s.preservesFramebuffer = true ↔ (s.readByte 0x1F).toNat % 2 = 1 := by
  rw [State.preservesFramebuffer, State.systemFlags_eq_readByte, BitVec.getLsbD, Nat.testBit_zero,
    decide_eq_true_iff]

theorem clearedMemory_read_framebuffer (m : Memory) {a : Nat} (hl : 0xA0 ≤ a) (hu : a ≤ 0x199F) :
    (clearedMemory m).read a = 0#8 := by
  have hk : a - 0xA0 < 6400 := by omega
  rw [clearedMemory, Memory.read_writeBytes, List.length_replicate, if_pos (by omega),
    List.getD_replicate _ hk]

theorem frameStartMemory_read_framebuffer (s : State) {a : Nat} (hl : 0xA0 ≤ a)
    (hu : a ≤ 0x199F) : (frameStartMemory s).read a =
      if (s.readByte 0x1F).toNat % 2 = 0 then 0#8 else s.readByte a := by
  have flag := s.preservesFramebuffer_iff
  unfold frameStartMemory
  split
  case isTrue kept => rw [if_neg (by have := flag.1 kept; omega), State.readByte]
  case isFalse cleared =>
    rw [if_pos (by have := mt flag.2 cleared; omega), clearedMemory_read_framebuffer _ hl hu]

theorem hostStep_frameStart_of_clear {s : State} (hf : s.fault.set = false) :
    hostStep .frameStart s = .next ((s.setMem (frameStartMemory s)).answerHost .done) := by
  rw [hostStep, State.perform_of_clear hf]

/-! ### HReset (R250, 10_state.md R47) -/

/-- What each register holds after HReset. -/
def resetValue (c : Config) (u : Unspecified) : Reg → Nat
  | .palette0 => c.resetPalette0.toNat
  | .palette1 => c.resetPalette1.toNat
  | .palette2 => c.resetPalette2.toNat
  | .palette3 => c.resetPalette3.toNat
  | .drawColors => c.resetDrawColors.toNat
  | .gamepad1 => u.gamepad1.toNat
  | .gamepad2 => u.gamepad2.toNat
  | .gamepad3 => u.gamepad3.toNat
  | .gamepad4 => u.gamepad4.toNat
  | .mouseX => u.mouseX.toNat
  | .mouseY => u.mouseY.toNat
  | .mouseButtons => u.mouseButtons.toNat
  | .systemFlags => (0#8).toNat
  | .netplay => (0#8).toNat

/-- HReset writes neither SYSTEM_FLAGS nor NETPLAY: their reset contents are what an unlisted byte reads
as. -/
theorem Memory.readReg_nil_flags :
    Memory.readReg [] .systemFlags = 0 ∧ Memory.readReg [] .netplay = 0 := by decide

theorem resetMemory_readReg (c : Config) (u : Unspecified) (r : Reg) :
    (resetMemory c u).readReg r = resetValue c u r := by
  cases r <;>
    simp (disch := omega) [resetMemory, resetValue, Memory.readReg_writeReg,
      Memory.readReg_writeBytes_above, Memory.readReg_nil_flags, rowOf, bytesOf, Nat.mod_eq_of_lt]

/-- Above the register file HReset leaves the host's image, over the reset contents. -/
theorem resetMemory_read_above (c : Config) (u : Unspecified) {a : Nat} (ha : 0x21 ≤ a) :
    (resetMemory c u).read a = (Memory.writeBytes [] 0x19A0 u.image).read a := by
  have outside (m : Memory) (r : Reg) (v : Nat) : (m.writeReg r v).read a = m.read a :=
    m.read_writeReg_outside v (by have := rowOf_bounds r; omega)
  simp only [resetMemory, outside]

theorem resetMemory_read_framebuffer (c : Config) (u : Unspecified) {a : Nat} (hl : 0xA0 ≤ a)
    (hu : a ≤ 0x199F) : (resetMemory c u).read a = 0#8 := by
  rw [resetMemory_read_above c u (by omega), Memory.read_writeBytes_outside _ (by omega)]
  simp only [Memory.read, Memory.lookup, Memory.initial]
  iterate 5 rw [if_neg (by omega)]
  rfl

theorem resetMemory_read_image (c : Config) (u : Unspecified) {k : Nat} (hk : k < u.image.length)
    (hend : k < 58976) : (resetMemory c u).read (0x19A0 + k) = u.image.getD k 0#8 := by
  rw [resetMemory_read_above c u (by omega), Memory.read_writeBytes, if_pos (by omega),
    Nat.add_sub_cancel_left]
  rfl

end Sys2Proof.Machine

namespace Sys2Proof.Proofs

open Sys2Proof Sys2Proof.Machine

/-- Settles O14 (R255): HInput is performed because FAULT.set is clear, and each input register then
holds its part of the snapshot. -/
theorem hostInputDepositsTheSnapshot : Obligations.HostInputDepositsTheSnapshot := by
  intro s g1 g2 g3 g4 mb mx my rest hc hh hf
  have clear : (s.setHost rest).fault.set = false := hf
  have held := inputMemory_readReg s.mem g1 g2 g3 g4 mx my mb
  exact ⟨_, (step_host hc hh).trans (hostStep_input_of_clear clear ..), rfl,
    Memory.read_of_readReg rfl (held .gamepad1), Memory.read_of_readReg rfl (held .gamepad2),
    Memory.read_of_readReg rfl (held .gamepad3), Memory.read_of_readReg rfl (held .gamepad4),
    (Memory.readReg_pair _ rfl).symm.trans (held .mouseX),
    (Memory.readReg_pair _ rfl).symm.trans (held .mouseY),
    Memory.read_of_readReg rfl (held .mouseButtons), fun _ ha => inputMemory_read_outside ha⟩

/-- Settles O15 (R257, decision D25): the flag is bit 0 of the byte at 0x1F before the clearing. -/
theorem frameStartClearsUnlessPreserved : Obligations.FrameStartClearsUnlessPreserved := by
  intro s rest hc hh hf
  have clear : (s.setHost rest).fault.set = false := hf
  exact ⟨_, (step_host hc hh).trans (hostStep_frameStart_of_clear clear), rfl,
    fun _ ha => frameStartMemory_read_outside (s.setHost rest) ha,
    fun _ hl hu => frameStartMemory_read_framebuffer (s.setHost rest) hl hu⟩

/-- Settles O16 (R250, 10_state.md R45, R47): HReset does not ask for FAULT.set; the registers hold
`resetValue`, and the other bytes are reserved, framebuffer or image. -/
theorem resetSetsEveryItem : Obligations.ResetSetsEveryItem := by
  intro s u rest hc hh
  have held := resetMemory_readReg s.cfg u
  exact ⟨_, step_host hc hh, rfl, rfl, rfl, rfl, rfl, rfl,
    fun a ha => resetMemory_read_reserved ha s.cfg u,
    Memory.read_of_readReg rfl (held .systemFlags), Memory.read_of_readReg rfl (held .netplay),
    fun a hl hu => resetMemory_read_framebuffer s.cfg u hl hu,
    held .palette0, held .palette1, held .palette2, held .palette3, held .drawColors,
    Memory.read_of_readReg rfl (held .gamepad1), Memory.read_of_readReg rfl (held .gamepad2),
    Memory.read_of_readReg rfl (held .gamepad3), Memory.read_of_readReg rfl (held .gamepad4),
    held .mouseX, held .mouseY, Memory.read_of_readReg rfl (held .mouseButtons),
    rfl, rfl, rfl, rfl, fun k hk hend => resetMemory_read_image s.cfg u hk hend⟩

/-- Settles O17 (R259, 60_exceptions.md R228): HPresent does not ask for FAULT.set; the palette words
and the flag bytes are the registers' bits. -/
theorem presentAnswersThePicture : Obligations.PresentAnswersThePicture := by
  intro s rest hc hh
  have word (r : Reg) : (BitVec.ofNat 32 (s.mem.readReg r)).toNat = s.mem.readReg r :=
    s.mem.toNat_readLE_word (rowOf r).address (rowOf r).width
  refine ⟨_, _, _, _, step_host hc hh, s.mem.readBytes_length _ _,
    fun k hk => Memory.readBytes_getD hk, ?_, s.systemFlags_eq_readByte,
    s.mem.ofNat_readReg_byte (r := .netplay) rfl⟩
  simp only [List.map, State.setHost_mem, word]
  rfl

end Sys2Proof.Proofs
end
